-- ==== Sys2Proof/Word.lean ====
section
/-! DEFINITION. The words of the core: every value is an unsigned bit vector of fixed width (R7, R134). -/

namespace Sys2Proof

/-- A wire byte, a buffer register, a data byte (R5: "Wire byte width 8 bits"). -/
abbrev Byte := BitVec 8

/-- The identifier: 34 bits, the only address space of the core (R5, R27). -/
abbrev Ident := BitVec 34

/-- The step word: bit 10 `rst`, bit 9 `in_close`, bit 8 `in_valid`, bits 7..0 `in_byte` (R60). -/
abbrev StepWord := BitVec 11

/-- The query word: bit 34 `q_valid`, bits 33..0 `q_id` (R60). -/
abbrev QueryWord := BitVec 35

/-- A difference mask, element 0 first, as long as the data it describes (R25). -/
abbrev Mask := List Bool

end Sys2Proof
end

