-- ==== Sys2Proof/Config.lean ====
section
/-! DEFINITION. What is fixed when a core is built: the open parameters of R5 as a record, the fixed sizes as constants. -/

namespace Sys2Proof.Config

/-- The parameters R5 leaves OPEN and rules read. `State` holds one such record, no step changes it (R24), and every
statement about every state is one about every value of the parameters (assumption log entry 1).
`TICK_UNIT` is not here: no rule reads it (entry 2). -/
structure Params where
  /-- `TW`: width in bits of `now` and of `last_seen` (R5, D5). -/
  tw : Nat
  /-- `CACHE_ENTRIES`: how many identifiers the cache can hold; `none` is the architectural, unbounded cache (R5, R47, D9). -/
  cacheEntries : Option Nat
deriving DecidableEq, Repr

/-- DESIGN CHOICE (log entry 1): the values the spec suggests, `TW` = 32 and an unbounded cache. -/
def suggested : Params := { tw := 32, cacheEntries := none }

/-- `BUF_DEPTH`: bytes of a frame before the framing byte that are kept (R5). -/
def bufDepth : Nat := 15

/-- The value of `CNT` that means "more than 15" (R5, R22). -/
def cntMax : Nat := 16

/-- `MAX_DATA`: the most data bytes the decoder can deliver (R5). -/
def maxData : Nat := 12

/-- The most data bytes of a conforming frame (R5); a longer record is marked over-long (R129). -/
def conformingData : Nat := 8

/-- `STALE_WINDOW`: 2 ticks (R5, R159). -/
def staleWindow : Nat := 2

end Sys2Proof.Config
end

