-- ==== Sys2Proof/Syntax.lean ====
section
/-! DEFINITION. The operations of the core, one constructor per row of spec/opcode_table.json, and the forms in which their
bits are written. -/

namespace Sys2Proof

/-- The three fields of a framing byte below its marker bit (R63). -/
structure FramingByte where
  /-- Bit 6, `k` (`c7`): becomes bit 7 of the carry. -/
  k : Bool
  /-- Bits 5:4, `ll` (`idc`): `id_length` is this plus 2. -/
  ll : BitVec 2
  /-- Bits 3:0, `nnnn` (`tl`): number of bytes of the frame before the framing byte. -/
  nnnn : BitVec 4
deriving DecidableEq, Repr

/-- The operations. Rows `RESET` to `CLOSE` are selected by the step word, `QUERY` by the query word (R60), `PAYLOAD` and
`FRAMING` by a wire byte alone (R61), the four byte roles by a payload byte's position in its frame (R62), and the last
three are the internal operations that `FRM` runs (R9). -/
inductive Instr where
  /-- `RESET` (R180). -/
  | reset
  /-- `NOP` (R102). -/
  | nop
  /-- `ACC v`, with a `CLOSE` after it in the same step if `c` (R100, R183). -/
  | acc (c : Bool) (v : BitVec 7)
  /-- `FRM fb`, with a `CLOSE` after it in the same step if `c` (R101, R183). -/
  | frm (c : Bool) (fb : FramingByte)
  /-- `CLOSE` (R181). -/
  | close
  /-- `QUERY q` (R161). -/
  | query (q : Ident)
  /-- A payload byte: selects `ACC` (R61). -/
  | payload (v : BitVec 7)
  /-- A framing byte: selects `FRM` (R61, R63). -/
  | framing (fb : FramingByte)
  /-- `ID0`: the first identifier byte, `e` the `extended` flag, `v` identifier bits 5..0 (R64). -/
  | id0 (e : Bool) (v : BitVec 6)
  /-- `IDk`: the identifier byte at position `k` = 1 .. 4 (R65). -/
  | idk (k : Nat) (v : BitVec 7)
  /-- `DATj`: data byte `j` = 0 .. 11 without its bit 7 (R66). -/
  | datj (j : Nat) (d : BitVec 7)
  /-- `CRY`: the carry byte, bits 6..0 of the carry (R67). -/
  | cry (c : BitVec 7)
  /-- `DECODE(BUF, CNT, fb)` (R120). -/
  | decode (fb : FramingByte)
  /-- `OBSERVE(id, fields, now)`, its operands those `DECODE` left (R150). -/
  | observe
  /-- `EMIT`, its operands those `DECODE` and `OBSERVE` left (R157). -/
  | emit
deriving DecidableEq, Repr

/-- The role of a payload byte, fixed by its position in the frame (R62, R64 to R67). -/
inductive Role where
  | id0
  | idk (k : Nat)
  | datj (j : Nat)
  | cry
deriving DecidableEq, Repr

/-- The bits of an operation, by the level at which the core reads them (30_encoding.md, R60 to R67). -/
inductive RawWord where
  /-- The 11-bit step word. -/
  | step (w : StepWord)
  /-- The 35-bit query word. -/
  | query (w : QueryWord)
  /-- One wire byte, read by its class alone. -/
  | wire (b : Byte)
  /-- One byte of a frame, read in the role its position gives it. -/
  | inFrame (r : Role) (b : Byte)
deriving DecidableEq, Repr

/-- Why the decoder gives no operation, by name. -/
inductive Reject where
  /-- `q_valid` is 0: no query is presented (R60). -/
  | noQuery
  /-- A byte with bit 7 set has no payload role: it is a framing byte (R61, R62). -/
  | boundaryMarkerInFrame
  /-- A role at a position no frame has: `IDk` outside 1..4, `DATj` outside 0..11 (R65, R66). -/
  | noSuchPosition
  /-- Bits above the 11 of a step word or the 35 of a query word are set. -/
  | bitsBeyondTheWord
  /-- A number of bytes that holds neither a wire byte (1), a step word (2) nor a query word (5). -/
  | noWordOfThisLength
deriving DecidableEq, Repr

/-- The arguments of the test encoder `ENC(id, ext, idl, data)` (R78). -/
structure EncArgs where
  id : Ident
  ext : Bool
  idl : Nat
  data : List Byte
deriving DecidableEq, Repr

end Sys2Proof
end

