-- ==== Sys2Proof/WellFormed.lean ====
section
/-! DEFINITION. Which terms are well formed: operations, parameters, and the arguments of the test encoder. -/

namespace Sys2Proof

/-- An operation is well formed when its position operand is one a frame can have (R65: `k` = 1 .. `idl` - 1 and `idl` is at
most 5; R66 and `MAX_DATA`: `j` = 0 .. 11). Every other operand is a bit field all of whose values are legal (R61, R75). -/
def Instr.wf : Instr → Bool
  | .reset => true
  | .nop => true
  | .acc _ _ => true
  | .frm _ _ => true
  | .close => true
  | .query _ => true
  | .payload _ => true
  | .framing _ => true
  | .id0 _ _ => true
  | .idk k _ => decide (1 ≤ k) && decide (k ≤ 4)
  | .datj j _ => decide (j < Config.maxData)
  | .cry _ => true
  | .decode _ => true
  | .observe => true
  | .emit => true

/-- The constraints the spec puts on the open parameters: `TW` at least 2, `CACHE_ENTRIES` at least 1 or infinity
(92_eei_decisions.md, "Open parameters"). -/
def Config.Params.wf (p : Config.Params) : Bool :=
  decide (2 ≤ p.tw) && (match p.cacheEntries with
    | none => true
    | some n => decide (1 ≤ n))

/-- The `require` lines of `ENC` (R78): 2 to 5 identifier bytes that hold the identifier, at most 15 payload bytes, and bit 7
clear in every data byte that no carry bit reaches. -/
def EncArgs.wf (a : EncArgs) : Bool :=
  decide (2 ≤ a.idl) && decide (a.idl ≤ 5) && decide (a.id.toNat < 2 ^ (6 + 7 * (a.idl - 1))) &&
    decide (a.idl + a.data.length + 1 ≤ 15) &&
    (a.data.take (a.data.length - Config.conformingData)).all (fun d => !d.msb)

end Sys2Proof
end

