-- ==== Sys2Proof/Decode.lean ====
section
/-! DEFINITION. The decoder, total on any word and on any bytes, and after it the encoder, both written from the tables of
30_encoding.md. -/

namespace Sys2Proof

/-- `tl = fb & 0x0F` (R63). -/
def FramingByte.tl (fb : FramingByte) : Nat := fb.nnnn.toNat

/-- `idl = ((fb >> 4) & 0x03) + 2`, 2 to 5 (R63). -/
def FramingByte.idl (fb : FramingByte) : Nat := fb.ll.toNat + 2

/-- `dn = tl - idl - 1`, meaningful when `tl >= idl + 1` (R62, R124). -/
def FramingByte.dn (fb : FramingByte) : Nat := fb.tl - fb.idl - 1

/-- The fields of a framing byte: bit 6, bits 5:4, bits 3:0; bit 7 is not looked at (R63, R121). -/
def framingFields (b : Byte) : FramingByte :=
  { k := b.getLsbD 6, ll := b.extractLsb' 4 2, nnnn := b.extractLsb' 0 4 }

/-- R60, read top to bottom: `rst` first, then `in_valid` with bit 7 of the byte, then `in_close`. Total: every step word
selects an operation. -/
def decodeStep (w : StepWord) : Instr :=
  if w.getLsbD 10 then .reset
  else if w.getLsbD 8 then
    if w.getLsbD 7 then .frm (w.getLsbD 9) (framingFields (w.extractLsb' 0 8))
    else .acc (w.getLsbD 9) (w.extractLsb' 0 7)
  else if w.getLsbD 9 then .close
  else .nop

/-- The query word (R60): `q_valid` selects `QUERY`; without it no query is presented. -/
def decodeQuery (w : QueryWord) : Except Reject Instr :=
  if w.getLsbD 34 then .ok (.query (w.extractLsb' 0 34)) else .error .noQuery

/-- The class of a wire byte, by bit 7 alone (R61). Total: all 256 values are legal. -/
def decodeWire (b : Byte) : Instr :=
  if b.getLsbD 7 then .framing (framingFields b) else .payload (b.extractLsb' 0 7)

/-- A payload byte in the role its position gives it (R64 to R67). -/
def decodeRole (r : Role) (b : Byte) : Except Reject Instr :=
  if b.getLsbD 7 then .error .boundaryMarkerInFrame
  else match r with
    | .id0 => .ok (.id0 (b.getLsbD 6) (b.extractLsb' 0 6))
    | .idk k => if 1 ≤ k ∧ k ≤ 4 then .ok (.idk k (b.extractLsb' 0 7)) else .error .noSuchPosition
    | .datj j => if j < Config.maxData then .ok (.datj j (b.extractLsb' 0 7)) else .error .noSuchPosition
    | .cry => .ok (.cry (b.extractLsb' 0 7))

/-- The role of the payload byte at position `p` of a frame closed by `fb` (R62: "the first `idl` are identifier bytes, the
last one is the carry byte, whatever lies between is data"). -/
def roleAt (fb : FramingByte) (p : Nat) : Role :=
  if p = 0 then .id0
  else if p < fb.idl then .idk p
  else if p + 1 = fb.tl then .cry
  else .datj (p - fb.idl)

/-- The decoder: any word to an operation, or a rejection by name. -/
def decode : RawWord → Except Reject Instr
  | .step w => .ok (decodeStep w)
  | .query w => decodeQuery w
  | .wire b => .ok (decodeWire b)
  | .inFrame r b => decodeRole r b

/-- The number `n` laid out as `len` bytes, least significant first. -/
def bytesOf : Nat → Nat → List Byte
  | 0, _ => []
  | len + 1, n => BitVec.ofNat 8 n :: bytesOf len (n / 256)

/-- The number that bytes laid out least significant first stand for. -/
def ofBytes : List Byte → Nat
  | [] => 0
  | b :: bs => b.toNat + 256 * ofBytes bs

/-- The decoder on any bytes. DESIGN CHOICE (log entry 13): the core stores no words, so the layout is the model's: one byte is
a wire byte, two bytes a step word, five a query word, the low byte first, the bits beyond the word clear. -/
def decodeBytes (bs : List Byte) : Except Reject Instr :=
  if bs.length = 1 then decode (.wire (BitVec.ofNat 8 (ofBytes bs)))
  else if bs.length = 2 then
    if ofBytes bs < 2 ^ 11 then decode (.step (BitVec.ofNat 11 (ofBytes bs))) else .error .bitsBeyondTheWord
  else if bs.length = 5 then
    if ofBytes bs < 2 ^ 35 then decode (.query (BitVec.ofNat 35 (ofBytes bs))) else .error .bitsBeyondTheWord
  else .error .noWordOfThisLength

/-- What the decoder reads from a row of the opcode table: its bits as a number, in whole bytes. A byte role or an internal
operation has no pattern that tells it apart, so its row's bits read as the operation that owns them (log entry 13). -/
def decodeTableWord (nbits w : Nat) : Option Instr :=
  (decodeBytes (bytesOf ((nbits + 7) / 8) w)).toOption

/-! ## The encoder -/

/-- `1 k ll nnnn` (R63). -/
def FramingByte.toByte (fb : FramingByte) : Byte := 1#1 ++ BitVec.ofBool fb.k ++ fb.ll ++ fb.nnnn

/-- `0 vvvvvvv` (R61, R65, R66, R67). -/
def payloadByte (v : BitVec 7) : Byte := 0#1 ++ v

/-- The word of an operation, bits that are not looked at sent as 0. The internal operations have no encoding of their own
(spec/opcode_table.json), so they have no word. -/
def encode : Instr → Option RawWord
  | .reset => some (.step 0x400#11)
  | .nop => some (.step 0x000#11)
  | .acc c v => some (.step (0#1 ++ BitVec.ofBool c ++ 1#1 ++ payloadByte v))
  | .frm c fb => some (.step (0#1 ++ BitVec.ofBool c ++ 1#1 ++ fb.toByte))
  | .close => some (.step 0x200#11)
  | .query q => some (.query (1#1 ++ q))
  | .payload v => some (.wire (payloadByte v))
  | .framing fb => some (.wire fb.toByte)
  | .id0 e v => some (.inFrame .id0 (0#1 ++ BitVec.ofBool e ++ v))
  | .idk k v => some (.inFrame (.idk k) (payloadByte v))
  | .datj j d => some (.inFrame (.datj j) (payloadByte d))
  | .cry c => some (.inFrame .cry (payloadByte c))
  | .decode _ => none
  | .observe => none
  | .emit => none

/-! ## The test encoder `ENC` (R78): not part of the core, a tool for writing frames -/

/-- Bit `7` of data byte `j` goes to carry bit `8 - dn + j` when that index is not negative (R78). -/
def encCarryStep (data : List Byte) (carry : Byte) (j : Nat) : Byte :=
  if data.length ≤ 8 + j then
    carry ||| (((data.getD j 0#8).extractLsb' 7 1).setWidth 8 <<< (8 + j - data.length))
  else carry

/-- The carry of `ENC`, built by its loop over the data bytes (R78). -/
def encCarry (data : List Byte) : Byte :=
  (List.range data.length).foldl (encCarryStep data) 0#8

/-- Identifier byte `k` ≥ 1: bits `6+7(k-1)+6` down to `6+7(k-1)` of the identifier (R78). -/
def encIdByte (id : Ident) (k : Nat) : Byte := payloadByte (id.extractLsb' (6 + 7 * (k - 1)) 7)

/-- The payload bytes of `ENC`: identifier bytes, data bytes, carry byte (R78). -/
def EncArgs.payload (a : EncArgs) : List Byte :=
  (0#1 ++ BitVec.ofBool a.ext ++ a.id.extractLsb' 0 6) ::
    ((List.range' 1 (a.idl - 1)).map (encIdByte a.id) ++
      a.data.map (fun d => payloadByte (d.extractLsb' 0 7)) ++
      [payloadByte ((encCarry a.data).extractLsb' 0 7)])

/-- The framing byte of `ENC`: `0x80 | carry[7]<<6 | (idl-2)<<4 | (idl+dn+1)` (R78). -/
def EncArgs.framing (a : EncArgs) : FramingByte :=
  { k := (encCarry a.data).getLsbD 7, ll := BitVec.ofNat 2 (a.idl - 2),
    nnnn := BitVec.ofNat 4 (a.idl + a.data.length + 1) }

/-- `ENC(id, ext, idl, data)`: the bytes of a whole frame, in the order they are sent (R78). -/
def encFrame (a : EncArgs) : List Byte := a.payload ++ [a.framing.toByte]

end Sys2Proof
end

