-- ==== Sys2Proof/Machine/State.lean ====
section
/-! DEFINITION. The state of the core as plain data: the spec's own state (R20), the ports (R29 to R32), the parameters (R5) and
the values that live inside one `FRM` step (R120), with the state right after reset (R33). -/

namespace Sys2Proof.Machine

/-- Why a frame is dropped (R200, R80: codes 1 and 2). -/
inductive DropKind where
  /-- The declared length is not the number of bytes collected (R201). -/
  | lengthMismatch
  /-- The frame has no room for its identifier and its carry byte (R202). -/
  | shortFrame
deriving DecidableEq, Repr

/-- `HKIND` (R23, R80: codes 0, 3, 4; 5 to 7 are never produced; log entry 18). -/
inductive FatalKind where
  /-- 0: no fatal error. -/
  | noFailure
  /-- 3: the transport closed in mid-frame (R203). -/
  | decodeIncomplete
  /-- 4: the transport closed between frames (R204). -/
  | transportClosed
deriving DecidableEq, Repr

/-- A cache entry (R25). Its `len` is the length of `lastData`: D21, "a model should use variable-length lists"
(log entry 10). -/
structure Entry where
  lastData : List Byte
  diffMask : Mask
  /-- The `now` of the step that last wrote this entry, below 2^`TW`. -/
  lastSeen : Nat
deriving DecidableEq, Repr

/-- The only memory of the core (R25, R27): a partial map from identifier to entry, as a list with strictly rising identifiers.
An identifier that is not listed has no entry. -/
abbrev Cache := List (Ident × Entry)

/-- What `DECODE` delivers (R120, the source's DecodedFrame). -/
structure DecodedFrame where
  id : Ident
  ext : Bool
  data : List Byte
deriving DecidableEq, Repr

/-- The result of `DECODE` (R120, R132). -/
inductive DecodeResult where
  | ok (f : DecodedFrame)
  | malformed (kind : DropKind)
deriving DecidableEq, Repr

/-- The working values of `DECODE` (the local names `c7`, `ext`, `id`, `carry`, `data` of R120). -/
structure Work where
  c7 : Bool
  ext : Bool
  id : Ident
  carry : Byte
  data : Vector Byte 12
deriving DecidableEq, Repr

/-- One output record, in the layout of the output port (R30, R157). -/
structure OutRecord where
  outId : Ident
  outExt : Bool
  outLen : BitVec 4
  outData : Vector Byte 12
  outMask : Vector Bool 12
  outTime : Nat
  outOverlong : Bool
deriving DecidableEq, Repr

/-- The outputs of the query port when the entry exists (R32). -/
structure QueryHit where
  qLen : BitVec 4
  qData : Vector Byte 12
  qMask : Vector Bool 12
  qLastSeen : Nat
  qFresh : Bool
  qEffMask : Vector Bool 12
deriving DecidableEq, Repr

/-- The answer to a query: `q_hit` = 0, where the other outputs carry no meaning, or `q_hit` = 1 with them (R32, R161). -/
inductive QueryAnswer where
  | miss
  | hit (h : QueryHit)
deriving DecidableEq, Repr

/-- How the ingest event of a step is presented: the pins of R60, or one byte of the byte source by itself (R61, R76).
DESIGN CHOICE (log entry 9): D2 lets a model use an event type instead of pins. -/
inductive Ingest where
  | pins (w : StepWord)
  | byte (b : Byte)
deriving DecidableEq, Repr

/-- The input pins of one step (R29, R60). -/
structure PinSample where
  ingest : Ingest
  queryWord : QueryWord
  /-- The time base's value; the port carries it modulo 2^`TW` (log entry 4). -/
  now : Nat
deriving DecidableEq, Repr

/-- The state of the machine. -/
structure State where
  /-- The parameters of R5, fixed for the core (log entry 1). -/
  cfg : Config.Params
  /-- `BUF[0..14]` (R21). -/
  buf : Vector Byte 15
  /-- `CNT`, 0 to 16 (R22). -/
  cnt : Fin 17
  /-- `HALT` (R23). -/
  halt : Bool
  /-- `HKIND` (R23). -/
  hkind : FatalKind
  /-- `OVF` (R23). -/
  ovf : Bool
  /-- `CACHE` (R25). -/
  cache : Cache
  /-- The input port `now`, as sampled in the current step (R29, log entry 4). -/
  now : Nat
  /-- The samples of the input pins still to come, oldest first (log entry 3). -/
  pins : List PinSample
  /-- The output record port: absent when `out_valid` = 0 (R30, log entry 5). -/
  out : Option OutRecord
  /-- The error port: absent when `err_valid` = 0 (R31). -/
  err : Option DropKind
  /-- The query port's outputs: absent when the step presents no query (R32). -/
  query : Option QueryAnswer
  /-- The working values of `DECODE`, blank outside `FRM` (log entries 7, 8). -/
  work : Work
  /-- What `DECODE` returned, absent outside `FRM` (log entry 8). -/
  decoded : Option DecodeResult
  /-- The mask `OBSERVE` returned, absent when it returned none and outside `FRM` (log entry 8). -/
  mask : Option Mask
deriving DecidableEq, Repr

/-- Nothing stops this machine: every step ends in ok, drop, halt or ignored (R12), and all four are next states. There are no
traps and no faults in the spec (R200, R207), so this type has no constructor: safe. -/
inductive Fault : Type
deriving DecidableEq, Repr

/-- A refusal to give a meaning. -/
inductive Refusal where
  /-- Raised only by an arm of `exec` whose operation has no meaning yet; no arm raises it. Safe. -/
  | notModelled (mnemonic : String)
deriving DecidableEq, Repr

/-- The working values of `DECODE` before it has read anything. -/
def Work.blank : Work := { c7 := false, ext := false, id := 0#34, carry := 0#8, data := Vector.replicate 12 0#8 }

/-- The state after reset (R33, R240): `CNT` = 0, `HALT` = 0, `HKIND` = 0, `OVF` = 0, the cache empty, no record and no pulse.
DESIGN CHOICE: `BUF` is unspecified and dead, here 0 (log entry 6); the parameters are the suggested ones (entry 1); the
fields that are the model's own are empty (entry 14). -/
def State.reset : State :=
  { cfg := Config.suggested
    buf := Vector.replicate 15 0#8
    cnt := 0
    halt := false
    hkind := .noFailure
    ovf := false
    cache := []
    now := 0
    pins := []
    out := none
    err := none
    query := none
    work := Work.blank
    decoded := none
    mask := none }

end Sys2Proof.Machine
end

