-- ==== Sys2Proof/Machine/Flags.lean ====
section
/-! DEFINITION. The status flags, the numbers of the error kinds, the status and error ports (R23, R31, R80), and the two tests
that stand in the place of condition codes: freshness (R159) and the difference mask (R153, R154, R164). -/

namespace Sys2Proof.Machine

/-- The code of a drop on `err_kind` (R80). -/
def DropKind.code : DropKind → BitVec 3
  | .lengthMismatch => 1#3
  | .shortFrame => 2#3

/-- The code of `HKIND` on `st_hkind` (R80). -/
def FatalKind.code : FatalKind → BitVec 3
  | .noFailure => 0#3
  | .decodeIncomplete => 3#3
  | .transportClosed => 4#3

/-- The status port (R31). -/
structure StatusPort where
  stHalt : Bool
  stHkind : BitVec 3
  stOvf : Bool
  stCnt : BitVec 5
deriving DecidableEq, Repr

/-- The status port shows the flags and the counter as the latest step left them (R31). -/
def State.statusPort (s : State) : StatusPort :=
  { stHalt := s.halt, stHkind := s.hkind.code, stOvf := s.ovf, stCnt := BitVec.ofNat 5 s.cnt.val }

/-- `err_valid` (R31). -/
def State.errValid (s : State) : Bool := s.err.isSome

/-- `err_kind`, meaningful with `err_valid` (R31, U16). -/
def State.errKind (s : State) : Option (BitVec 3) := s.err.map DropKind.code

/-- `out_valid` (R30). -/
def State.outValid (s : State) : Bool := s.out.isSome

/-- `OVF <- 1` (R156). -/
def State.setOvf (s : State) : State := { s with ovf := true }

/-- `CNT` after one more payload byte: up by one, staying at 16 (R22, R100). -/
def cntNext (n : Fin 17) : Fin 17 := ⟨min (n.val + 1) 16, by omega⟩

/-- `alltrue(L)` (R8). -/
def allTrue (len : Nat) : Mask := List.replicate len true

/-- The mask of an observation that differs from the stored data: element by element when the lengths agree (R153, R164),
all true of the new length when they do not (R154). -/
def diffMask (stored fields : List Byte) : Mask :=
  if stored.length = fields.length then List.zipWith (fun f d => decide (f ≠ d)) fields stored
  else allTrue fields.length

/-- `(now - last_seen) mod 2^TW` (R159). -/
def age (tw now lastSeen : Nat) : Nat := (((now : Int) - (lastSeen : Int)) % ((2 ^ tw : Nat) : Int)).toNat

/-- `Fresh(e, now)` (R159). -/
def fresh (tw now : Nat) (e : Entry) : Bool := decide (age tw now e.lastSeen ≤ Config.staleWindow)

/-- `EffMask(e, now)` (R160). -/
def effMask (tw now : Nat) (e : Entry) : Mask := e.diffMask.map (fun b => b && fresh tw now e)

end Sys2Proof.Machine
end

