-- ==== Sys2Proof/Machine/Operands.lean ====
section
/-! DEFINITION. The operand forms: reading `BUF`, what each byte role contributes to a frame, and `DECODE` as a function of its
three operands (R120: "a pure function"). -/

namespace Sys2Proof.Machine

/-- Read of `BUF[i]`. `DECODE` only ever uses indices below `tl = CNT <= 15` (R132), so the value given beyond the 15 registers
is never used. -/
def bufRead (buf : Vector Byte 15) (i : Nat) : Byte := buf.toList.getD i 0#8

/-- The low 7 bits of a payload byte: its own bit 7 is 0 in every reachable state (R28, log entry 11). -/
def low7 (b : Byte) : BitVec 7 := b.extractLsb' 0 7

/-- DECODE step 1 (R121): the working values with the framing byte's spare carry bit taken. -/
def Work.start (fb : FramingByte) : Work := { Work.blank with c7 := fb.k }

/-- `ID0` (R64, R125): bit 6 is the `extended` flag, bits 5..0 are the low 6 bits of the identifier. -/
def Work.takeId0 (e : Bool) (v : BitVec 6) (w : Work) : Work :=
  { w with ext := e, id := v.setWidth 34 }

/-- `IDk` (R65, R125): 7 bits OR-ed into the identifier, shifted left by `6 + 7(k-1)`. -/
def Work.takeIdk (k : Nat) (v : BitVec 7) (w : Work) : Work :=
  { w with id := w.id ||| (v.setWidth 34 <<< (6 + 7 * (k - 1))) }

/-- `CRY` (R67, R127): the carry is `c7 :: CRY[6:0]`, 8 bits. -/
def Work.takeCry (c : BitVec 7) (w : Work) : Work :=
  { w with carry := BitVec.ofBool w.c7 ++ c }

/-- `DATj` (R66, R127): the carry's top bit becomes bit 7 of data byte `j`, and the carry shifts left by one. -/
def Work.takeDatj (j : Nat) (d : BitVec 7) (w : Work) : Work :=
  { w with
      data := w.data.setIfInBounds j ((w.carry &&& 0x80#8) ||| d.setWidth 8)
      carry := w.carry <<< 1 }

/-- DECODE step 4 (R125): the identifier bytes `BUF[0..idl-1]`, first to last. -/
def takeIdentifier (buf : Vector Byte 15) (idl : Nat) (w : Work) : Work :=
  (List.range' 1 (idl - 1)).foldl (fun w k => w.takeIdk k (low7 (bufRead buf k)))
    (w.takeId0 ((bufRead buf 0).getLsbD 6) ((bufRead buf 0).extractLsb' 0 6))

/-- The loop of DECODE step 5 (R127): `dn` data bytes from the last to the first, data byte `j` from `BUF[idl + j]`. -/
def takeData (buf : Vector Byte 15) (idl : Nat) : Nat → Work → Work
  | 0, w => w
  | dn + 1, w => takeData buf idl dn (w.takeDatj dn (low7 (bufRead buf (idl + dn))))

/-- DECODE steps 3 to 5 on a frame that passed both checks (R124, R125, R127): the carry byte is `BUF[tl-1]`. -/
def assemble (buf : Vector Byte 15) (fb : FramingByte) : Work :=
  takeData buf fb.idl fb.dn
    ((takeIdentifier buf fb.idl (Work.start fb)).takeCry (low7 (bufRead buf (fb.tl - 1))))

/-- The two checks of `DECODE`, the length first (R122, R123, R208). -/
def frameCheck (n : Fin 17) (fb : FramingByte) : Option DropKind :=
  if n.val ≠ fb.tl then some .lengthMismatch
  else if fb.tl < fb.idl + 1 then some .shortFrame
  else none

/-- DECODE step 6 (R120): identifier, `extended` and the `dn` data bytes in their original order. -/
def Work.frame (dn : Nat) (w : Work) : DecodedFrame :=
  { id := w.id, ext := w.ext, data := w.data.toList.take dn }

/-- `DECODE(BUF, n, fb)` (R120). -/
def decodeFrame (buf : Vector Byte 15) (n : Fin 17) (fb : FramingByte) : DecodeResult :=
  match frameCheck n fb with
  | some kind => .malformed kind
  | none => .ok ((assemble buf fb).frame fb.dn)

/-- The working values `DECODE` ends with; a rejected frame is not read past step 1 (R120). -/
def decodeWork (buf : Vector Byte 15) (n : Fin 17) (fb : FramingByte) : Work :=
  match frameCheck n fb with
  | some _ => Work.start fb
  | none => assemble buf fb

/-- The 12 data elements of a port: element `i` for `i < len`, the others 0 (R30, R157, D21). -/
def portData (data : List Byte) : Vector Byte 12 := Vector.ofFn fun i => data.getD i.val 0#8

/-- The 12 mask bits of a port: bit `i` for `i < len`, the others 0 (R30, R157, D21). -/
def portMask (mask : Mask) : Vector Bool 12 := Vector.ofFn fun i => mask.getD i.val false

/-- The 4-bit length of a port (R30, R32). -/
def portLen (data : List Byte) : BitVec 4 := BitVec.ofNat 4 data.length

end Sys2Proof.Machine
end

