-- ==== Sys2Proof/Machine/Ops.lean ====
section
/-! DEFINITION. The named operations over the state, each once: cache access, the frame buffer, taking an error, the parts of
`FRM`, the query. -/

namespace Sys2Proof.Machine

/-! ## The cache as memory (R25, R45, R46) -/

/-- The canonical form: identifiers strictly rising, so at most one entry each (R26 (c)). -/
abbrev Cache.wf (c : Cache) : Prop := c.Pairwise (fun a b => a.1 < b.1)

/-- `CacheRead(id)`: the entry whose key equals `id` in all 34 bits, or none (R8, R46). -/
def Cache.read : Cache → Ident → Option Entry
  | [], _ => none
  | (key, e) :: c, id => if key = id then some e else Cache.read c id

/-- `CacheWrite(id, e)`: store the whole entry under `id`, replacing any entry there (R8, R45). -/
def Cache.write : Cache → Ident → Entry → Cache
  | [], id, e => [(id, e)]
  | (key, x) :: c, id, e =>
    if id < key then (id, e) :: (key, x) :: c
    else if key = id then (id, e) :: c
    else (key, x) :: Cache.write c id e

/-- Number of entries below `CACHE_ENTRIES` (R150); always so for the unbounded cache (R156). -/
def hasRoom (p : Config.Params) (c : Cache) : Bool :=
  match p.cacheEntries with
  | none => true
  | some n => decide (c.length < n)

/-- Store an entry for `id` whose time is the `now` of this step (R150, R163). -/
def State.store (id : Ident) (fields : List Byte) (m : Mask) (s : State) : State :=
  { s with cache := s.cache.write id { lastData := fields, diffMask := m, lastSeen := s.now } }

/-! ## Events -/

/-- The pulses of the step before are over: `out_valid` = 0, `err_valid` = 0 (R30, R31, R209). -/
def State.clearPulses (s : State) : State := { s with out := none, err := none }

/-- An event other than `RESET`: ignored while `HALT` = 1 (R182, R208 (c)). -/
def State.event (op : State → State) (s : State) : State :=
  if s.halt then s.clearPulses else op s.clearPulses

/-- `if CNT < 15: BUF[CNT] <- v; if CNT < 16: CNT <- CNT + 1` (R100). -/
def State.accumulate (b : Byte) (s : State) : State :=
  { s with
      buf := if s.cnt.val < Config.bufDepth then s.buf.setIfInBounds s.cnt.val b else s.buf
      cnt := cntNext s.cnt }

/-! ## Errors (R200): the core takes one without saving anything, going nowhere, changing no mode -/

/-- Taking a drop (R209): `CNT <- 0`, one pulse with the kind, no record, and nothing else. Return is the next byte (R211). -/
def State.drop (kind : DropKind) (s : State) : State :=
  { s with cnt := 0, err := some kind, out := none }

/-- Taking a fatal error (R210): `HALT <- 1`, `HKIND <-` the kind, no pulse. Only `RESET` returns from it (R212). -/
def State.haltWith (kind : FatalKind) (s : State) : State := { s with halt := true, hkind := kind }

/-- `CLOSE` on a running core (R181): in mid-frame if `CNT` > 0. Ignored while halted (R182). -/
def State.closeTransport (s : State) : State :=
  if s.halt then s
  else s.haltWith (if 0 < s.cnt.val then .decodeIncomplete else .transportClosed)

/-- The `CLOSE` that follows a byte in the same step when `c` = 1 (R183). -/
def State.closeIf (c : Bool) (s : State) : State := if c then s.closeTransport else s

/-- `RESET` (R180): also the only return from a fatal error (R212). `BUF` is not written. -/
def State.resetCore (s : State) : State :=
  { s with cnt := 0, halt := false, hkind := .noFailure, ovf := false, cache := [], out := none, err := none }

/-! ## The chain of `FRM` (R9, R101): decode, observe, emit -/

/-- `DECODE` (R120): reads `BUF` and `CNT`, writes no architectural state; its result is left in the latch. -/
def State.runDecode (fb : FramingByte) (s : State) : State :=
  { s with work := decodeWork s.buf s.cnt fb, decoded := some (decodeFrame s.buf s.cnt fb) }

/-- `OBSERVE(id, fields, now)` (R150): the returned mask is left in the latch. -/
def State.observeFields (id : Ident) (fields : List Byte) (s : State) : State :=
  match s.cache.read id with
  | none =>
    if hasRoom s.cfg s.cache then
      { s.store id fields (allTrue fields.length) with mask := some (allTrue fields.length) }
    else { s.setOvf with mask := some (allTrue fields.length) }
  | some e =>
    if e.lastData = fields then { s with mask := none }
    else { s.store id fields (diffMask e.lastData fields) with mask := some (diffMask e.lastData fields) }

/-- `OBSERVE` on the frame `DECODE` left: "run only when `DECODE` returned `Ok`" (42_cache.md). -/
def State.runObserve (s : State) : State :=
  match s.decoded with
  | some (.ok f) => s.observeFields f.id f.data
  | some (.malformed _) => s
  | none => s

/-- The record of one emission (R157, R30, R129). -/
def outRecord (f : DecodedFrame) (m : Mask) (now : Nat) : OutRecord :=
  { outId := f.id, outExt := f.ext, outLen := portLen f.data, outData := portData f.data, outMask := portMask m,
    outTime := now, outOverlong := decide (Config.conformingData < f.data.length) }

/-- `EMIT` of the frame `DECODE` left with the mask `OBSERVE` left: "run only when `OBSERVE` returned a mask" (42_cache.md). -/
def State.runEmit (s : State) : State :=
  match s.decoded, s.mask with
  | some (.ok f), some m => { s with out := some (outRecord f m s.now) }
  | some (.ok _), none => s
  | some (.malformed _), _ => s
  | none, _ => s

/-- `Malformed(kind): drop kind` (R101). -/
def State.dropIfMalformed (s : State) : State :=
  match s.decoded with
  | some (.malformed kind) => s.drop kind
  | some (.ok _) => s
  | none => s

/-- The transient values of a frame end with its step (R20). -/
def State.endFrame (s : State) : State := { s with work := Work.blank, decoded := none, mask := none }

/-- `FRM fb` on a running core (R101): `DECODE`, `CNT <- 0`, then the drop, or `OBSERVE` and `EMIT`. -/
def State.closeFrame (fb : FramingByte) (s : State) : State :=
  (({ s.runDecode fb with cnt := 0 } : State).dropIfMalformed.runObserve.runEmit).endFrame

/-! ## The query port (R161) -/

/-- The outputs for an entry that exists (R161): the stored mask is unchanged by time, the effective mask is not. -/
def queryHit (tw now : Nat) (e : Entry) : QueryHit :=
  { qLen := portLen e.lastData, qData := portData e.lastData, qMask := portMask e.diffMask, qLastSeen := e.lastSeen,
    qFresh := fresh tw now e, qEffMask := portMask (effMask tw now e) }

/-- The answer to `QUERY id` in this state and at this `now` (R161). -/
def State.answer (s : State) (q : Ident) : QueryAnswer :=
  match s.cache.read q with
  | none => .miss
  | some e => .hit (queryHit s.cfg.tw s.now e)

/-! ## The step's inputs (R29, R60) -/

/-- The pins of a step in which the environment presents nothing: a `NOP`, no query, `now` unchanged (log entry 3). -/
def State.idleSample (s : State) : PinSample := { ingest := .pins 0#11, queryWord := 0#35, now := s.now }

/-- The pins of the next step: the oldest sample that is waiting, or idle pins. -/
def State.nextSample (s : State) : PinSample := s.pins.headD s.idleSample

/-- Sampling the pins (R29): the sample is used up, `now` is read from its `TW`-bit port, and the query port is not yet driven. -/
def State.sampled (s : State) : State :=
  { s with pins := s.pins.tail, now := s.nextSample.now % 2 ^ s.cfg.tw, query := none }

/-- The operation that the ingest pins select (R60, R61). -/
def decodeIngest : Ingest → Instr
  | .pins w => decodeStep w
  | .byte b => decodeWire b

/-- The sample that presents one word of the opcode table in the next step (log entry 15): a wire byte by itself, a step word,
or a query word beside idle ingest pins. -/
def sampleOf (nbits w now : Nat) : PinSample :=
  if nbits ≤ 8 then { ingest := .byte (BitVec.ofNat 8 w), queryWord := 0#35, now := now }
  else if nbits ≤ 16 then { ingest := .pins (BitVec.ofNat 11 w), queryWord := 0#35, now := now }
  else { ingest := .pins 0#11, queryWord := BitVec.ofNat 35 w, now := now }

/-- One operation after another in one step: the second runs only on a next state. -/
def andThen (r : Host.Outcome State Fault Refusal) (k : State → Host.Outcome State Fault Refusal) :
    Host.Outcome State Fault Refusal :=
  match r with
  | .next s => k s
  | .fault e => .fault e
  | .refused e => .refused e

end Sys2Proof.Machine
end

