-- ==== Sys2Proof/Machine/ChangeCache.lean ====
section
/-! DEFINITION. The cache's operations (42_cache.md). -/

namespace Sys2Proof.Machine

/-- `OBSERVE` (R150). -/
def execObserve (s : State) : Host.Outcome State Fault Refusal := .next s.runObserve

/-- `EMIT` (R157). -/
def execEmit (s : State) : Host.Outcome State Fault Refusal := .next s.runEmit

/-- `QUERY q` (R161): drives the query port and writes nothing else; served also while `HALT` = 1. -/
def execQuery (q : Ident) (s : State) : Host.Outcome State Fault Refusal :=
  .next { s with query := some (s.answer q) }

end Sys2Proof.Machine
end

