-- ==== Sys2Proof/Machine/Decoder.lean ====
section
/-! DEFINITION. The decoder's operations: the four byte roles and `DECODE` (41_decoder.md, R64 to R67). They act on the decoder's
working values; how they stand to the arriving byte is log entry 7. -/

namespace Sys2Proof.Machine

/-- `ID0` (R64): the `extended` flag and identifier bits 5..0. -/
def execId0 (e : Bool) (v : BitVec 6) (s : State) : Host.Outcome State Fault Refusal :=
  .next { s with work := s.work.takeId0 e v }

/-- `IDk` (R65): identifier bits `6 + 7(k-1) + 6` down to `6 + 7(k-1)`. -/
def execIdk (k : Nat) (v : BitVec 7) (s : State) : Host.Outcome State Fault Refusal :=
  .next { s with work := s.work.takeIdk k v }

/-- `DATj` (R66, R127): bits 6..0 of data byte `j`, its bit 7 from the carry. -/
def execDatj (j : Nat) (d : BitVec 7) (s : State) : Host.Outcome State Fault Refusal :=
  .next { s with work := s.work.takeDatj j d }

/-- `CRY` (R67, R127): bits 6..0 of the carry, bit 7 from the framing byte. -/
def execCry (c : BitVec 7) (s : State) : Host.Outcome State Fault Refusal :=
  .next { s with work := s.work.takeCry c }

/-- `DECODE` (R120). -/
def execDecode (fb : FramingByte) (s : State) : Host.Outcome State Fault Refusal := .next (s.runDecode fb)

end Sys2Proof.Machine
end

