-- ==== Sys2Proof/Machine/Framer.lean ====
section
/-! DEFINITION. The framer's operations (40_framer.md) and the two wire byte classes that select them (R61). -/

namespace Sys2Proof.Machine

/-- `NOP` (R102): nothing. No record, no pulse. -/
def execNop (s : State) : Host.Outcome State Fault Refusal := .next (s.event id)

/-- `ACC v` (R100), then `CLOSE` if `c` (R183). -/
def execAcc (c : Bool) (v : BitVec 7) (s : State) : Host.Outcome State Fault Refusal :=
  .next ((s.event (State.accumulate (payloadByte v))).closeIf c)

/-- `FRM fb` (R101), then `CLOSE` if `c` (R183). -/
def execFrm (c : Bool) (fb : FramingByte) (s : State) : Host.Outcome State Fault Refusal :=
  .next ((s.event (State.closeFrame fb)).closeIf c)

/-- A payload byte from the byte source: it selects `ACC` (R61, R103). -/
def execPayload (v : BitVec 7) (s : State) : Host.Outcome State Fault Refusal :=
  .next (s.event (State.accumulate (payloadByte v)))

/-- A framing byte from the byte source: it selects `FRM` (R61, R63, R103). -/
def execFraming (fb : FramingByte) (s : State) : Host.Outcome State Fault Refusal :=
  .next (s.event (State.closeFrame fb))

end Sys2Proof.Machine
end

