-- ==== Sys2Proof/Machine/System.lean ====
section
/-! DEFINITION. The system operations (43_system.md). -/

namespace Sys2Proof.Machine

/-- `RESET` (R180), in any state. -/
def execReset (s : State) : Host.Outcome State Fault Refusal := .next s.resetCore

/-- `CLOSE` (R181). -/
def execClose (s : State) : Host.Outcome State Fault Refusal := .next (s.event State.closeTransport)

end Sys2Proof.Machine
end

