-- ==== Sys2Proof/Machine/Dispatch.lean ====
section
/-! DEFINITION. The meaning of each operation, one arm per constructor. -/

namespace Sys2Proof.Machine

def exec (i : Instr) (s : State) : Host.Outcome State Fault Refusal :=
  match i with
  | .reset => Sys2Proof.Machine.execReset s
  | .nop => Sys2Proof.Machine.execNop s
  | .acc c v => Sys2Proof.Machine.execAcc c v s
  | .frm c fb => Sys2Proof.Machine.execFrm c fb s
  | .close => Sys2Proof.Machine.execClose s
  | .query q => Sys2Proof.Machine.execQuery q s
  | .payload v => Sys2Proof.Machine.execPayload v s
  | .framing fb => Sys2Proof.Machine.execFraming fb s
  | .id0 e v => Sys2Proof.Machine.execId0 e v s
  | .idk k v => Sys2Proof.Machine.execIdk k v s
  | .datj j d => Sys2Proof.Machine.execDatj j d s
  | .cry c => Sys2Proof.Machine.execCry c s
  | .decode fb => Sys2Proof.Machine.execDecode fb s
  | .observe => Sys2Proof.Machine.execObserve s
  | .emit => Sys2Proof.Machine.execEmit s

end Sys2Proof.Machine
end

