-- ==== Sys2Proof/Machine/Step.lean ====
section
/-! DEFINITION. One step (R9, R60): sample the pins, serve the query on the state before the ingest operation (R50), perform the
operation the ingest pins select. -/

namespace Sys2Proof.Machine

/-- The query port in one step: `QUERY` when the query word presents one, nothing otherwise (R60). -/
def serveQuery (w : QueryWord) (s : State) : Host.Outcome State Fault Refusal :=
  match decodeQuery w with
  | .ok i => exec i s
  | .error _ => .next s

/-- One step of the core. -/
def step (s : State) : Host.Outcome State Fault Refusal :=
  andThen (serveQuery s.nextSample.queryWord s.sampled) (exec (decodeIngest s.nextSample.ingest))

/-- `s` with one word of the opcode table presented by the environment in the next step; what was waiting comes after it. The
core fetches nothing from memory (R22): its program is the stream of events (log entry 15). -/
def State.withFetchWord (s : State) (nbits w : Nat) : State :=
  { s with pins := sampleOf nbits w s.now :: s.pins }

end Sys2Proof.Machine
end

