-- ==== Sys2Proof/Safety.lean ====
section
/-! DEFINITION. What counts as a sound state and a run, and the closed forms of the spec's derived rules: the terms the
statements use. -/

namespace Sys2Proof.Machine

/-! ## Sound states -/

/-- R26 (a), (b) for an entry held as lists, with its fields in range (R25). -/
abbrev Entry.wf (tw : Nat) (e : Entry) : Prop :=
  e.diffMask.length = e.lastData.length ∧ e.lastData.length ≤ Config.maxData ∧ e.lastSeen < 2 ^ tw

/-- A record as the output port drives it (R30): at most 12 data bytes, nothing beyond `out_len`, `out_overlong` = 1 exactly
when `out_len` > 8. -/
abbrev OutRecord.wf (tw : Nat) (r : OutRecord) : Prop :=
  r.outLen.toNat ≤ Config.maxData ∧ r.outTime < 2 ^ tw ∧
    r.outOverlong = decide (Config.conformingData < r.outLen.toNat) ∧
    ∀ i : Fin 12, r.outLen.toNat ≤ i.val → r.outData[i] = 0#8 ∧ r.outMask[i] = false

/-- The invariant of the machine: what the spec promises "after every step". -/
structure State.Inv (s : State) : Prop where
  /-- The parameters are ones a core can have (92_eei_decisions.md). -/
  params : s.cfg.wf = true
  /-- One entry per identifier, in the canonical order (R26 (c)). -/
  canonical : s.cache.wf
  /-- Every entry is sound (R26 (a), (b)). -/
  entries : ∀ p ∈ s.cache, p.2.wf s.cfg.tw
  /-- The number of entries never exceeds `CACHE_ENTRIES` (R26 (e)). -/
  capacity : ∀ n, s.cfg.cacheEntries = some n → s.cache.length ≤ n
  /-- `OVF` is set only by a cache with no free entry (R23, R156). -/
  overflow : s.ovf = true → hasRoom s.cfg s.cache = false
  /-- `HKIND` names the fatal error exactly while `HALT` is set (R23, R80). -/
  haltKind : s.halt = true ↔ s.hkind ≠ .noFailure
  /-- `now` is a `TW`-bit value (R29). -/
  nowInRange : s.now < 2 ^ s.cfg.tw
  /-- Bit 7 of every live buffer register is 0 (R28 (b)). -/
  livePayload : ∀ i, i < s.cnt.val → i < Config.bufDepth → (bufRead s.buf i).getLsbD 7 = false
  /-- A drop and a record never occur in the same step (R208 (d)). -/
  oneOutput : s.out = none ∨ s.err = none
  /-- A record on the port is laid out as R30 says. -/
  record : ∀ r, s.out = some r → r.wf s.cfg.tw
  /-- Nothing of a frame outlives its step but R20's state. -/
  frameOver : s.work = Work.blank ∧ s.decoded = none ∧ s.mask = none

/-- A run in which nothing went wrong ends with `HALT` = 0 and `OVF` = 0 (R23). -/
def State.clean (s : State) : Prop := s.halt = false ∧ s.ovf = false

/-! ## Runs -/

/-- `k` steps of the core. -/
def run (k : Nat) (s : State) : Host.Outcome State Fault Refusal := Host.Core.run Sys2Proof.core k s

/-- The operation that the next step's ingest pins select. -/
def State.presented (s : State) : Instr := decodeIngest s.nextSample.ingest

/-- A sample that presents one byte on `in_byte` and nothing else, at time `now` (R60, R76). -/
def byteSample (now : Nat) (b : Byte) : PinSample :=
  { ingest := .pins (0#1 ++ 0#1 ++ 1#1 ++ b), queryWord := 0#35, now := now }

/-- The two states agree on everything but the buffer, and on every live register of it (R21). -/
def State.sameButDeadBytes (s t : State) : Prop :=
  t = { s with buf := t.buf } ∧ ∀ i, i < s.cnt.val → i < Config.bufDepth → bufRead t.buf i = bufRead s.buf i

/-- The same core built with an unbounded cache (R47, D9). -/
def State.unbounded (s : State) : State := { s with cfg := { s.cfg with cacheEntries := none } }

/-! ## The spec's closed forms, written without the decoder's loop -/

/-- R70: the identifier from the bytes `b 0`, `b 1`, … and `idl`. -/
def refIdent (b : Nat → Byte) (idl : Nat) : Ident :=
  ((b 0).extractLsb' 0 6).setWidth 34
    ||| ((b 1).extractLsb' 0 7).setWidth 34 <<< 6
    ||| (if 3 ≤ idl then ((b 2).extractLsb' 0 7).setWidth 34 <<< 13 else 0#34)
    ||| (if 4 ≤ idl then ((b 3).extractLsb' 0 7).setWidth 34 <<< 20 else 0#34)
    ||| (if idl = 5 then ((b 4).extractLsb' 0 7).setWidth 34 <<< 27 else 0#34)

/-- R71: `carry = c7 :: CRY[6:0]`. -/
def refCarry (b : Nat → Byte) (fb : FramingByte) : Byte :=
  BitVec.ofBool fb.k ++ (b (fb.tl - 1)).extractLsb' 0 7

/-- R71: data byte `j`: bits 6..0 from `BUF[idl + j]`, bit 7 from carry bit `8 - dn + j`, or 0 when that is negative. -/
def refDataByte (b : Nat → Byte) (fb : FramingByte) (j : Nat) : Byte :=
  BitVec.ofBool (decide (fb.dn ≤ 8 + j) && (refCarry b fb).getLsbD (8 + j - fb.dn)) ++
    (b (fb.idl + j)).extractLsb' 0 7

/-- `DECODE` of `n` payload bytes `b 0`, `b 1`, … closed by `fb`, by the closed forms R70 and R71 and the checks R122 and R123;
`n` has no upper bound here (R104). -/
def refDecode (n : Nat) (b : Nat → Byte) (fb : FramingByte) : DecodeResult :=
  if n ≠ fb.tl then .malformed .lengthMismatch
  else if fb.tl < fb.idl + 1 then .malformed .shortFrame
  else .ok { id := refIdent b fb.idl, ext := (b 0).getLsbD 6, data := (List.range fb.dn).map (refDataByte b fb) }

/-- R153: `m[i] = (fields[i] != last_data[i])`, element by element. -/
def refMask (stored fields : List Byte) : Mask :=
  (List.range fields.length).map (fun j => decide (fields[j]? ≠ stored[j]?))

/-- R150 as a function of the cache: the returned mask, the cache after, and whether `OVF` is raised. -/
def refObserve (p : Config.Params) (c : Cache) (id : Ident) (fields : List Byte) (now : Nat) : Option Mask × Cache × Bool :=
  match c.read id with
  | none =>
    if hasRoom p c then
      (some (allTrue fields.length), c.write id { lastData := fields, diffMask := allTrue fields.length, lastSeen := now }, false)
    else (some (allTrue fields.length), c, true)
  | some e =>
    if e.lastData = fields then (none, c, false)
    else
      let m := if e.lastData.length = fields.length then refMask e.lastData fields else allTrue fields.length
      (some m, c.write id { lastData := fields, diffMask := m, lastSeen := now }, false)

end Sys2Proof.Machine
end

