-- ==== Sys2Proof/Certificates/Slice0/Obligations.lean ====
section
/-! DEFINITION. The statements about the core, one definition each. `R<n>` are the spec's rules. -/

open Sys2Proof Sys2Proof.Machine

/-! ## Encodings -/

/-- R60: every step word that matches a row of the table selects that row's operation with its fields where the pattern has
them. -/
def Obligations.StepWordSelectsByTable : Prop :=
  ∀ w : StepWord,
    (w &&& 0x400#11 = 0x400#11 → decodeStep w = .reset) ∧
    (w &&& 0x700#11 = 0x000#11 → decodeStep w = .nop) ∧
    (w &&& 0x580#11 = 0x100#11 → decodeStep w = .acc (w.getLsbD 9) (w.extractLsb' 0 7)) ∧
    (w &&& 0x580#11 = 0x180#11 →
      decodeStep w = .frm (w.getLsbD 9) { k := w.getLsbD 6, ll := w.extractLsb' 4 2, nnnn := w.extractLsb' 0 4 }) ∧
    (w &&& 0x700#11 = 0x200#11 → decodeStep w = .close)

/-- Words written out from the spec's tables decode to the operations they stand for (R60, R61, R63 to R67). -/
def Obligations.WrittenWordsDecode : Prop :=
  decode (.step 0b10000000000#11) = .ok .reset ∧
  decode (.step 0b01000000000#11) = .ok .close ∧
  decode (.step 0b00100100011#11) = .ok (.acc false 0b0100011#7) ∧
  decode (.step 0b01110000011#11) = .ok (.frm true { k := false, ll := 0b00#2, nnnn := 0b0011#4 }) ∧
  decode (.query 0x400000036#35) = .ok (.query 0x36#34) ∧
  decode (.query 0x000000036#35) = .error .noQuery ∧
  decode (.wire 0b11111110#8) = .ok (.framing { k := true, ll := 0b11#2, nnnn := 0b1110#4 }) ∧
  decode (.inFrame .id0 0b01100011#8) = .ok (.id0 true 0b100011#6) ∧
  decode (.inFrame (.idk 4) 0b00000011#8) = .ok (.idk 4 0b0000011#7) ∧
  decode (.inFrame .cry 0b10000000#8) = .error .boundaryMarkerInFrame

/-- For every well-formed operation that has an encoding, decoding its word gives it back, with every operand at every value
(R60, R61, R63 to R67). -/
def Obligations.DecodeOfEncode : Prop :=
  ∀ (i : Instr) (w : RawWord), i.wf = true → encode i = some w → decode w = .ok i

/-- R61: bit 7 alone tells the classes apart, and no other bit of the byte is lost. -/
def Obligations.WireByteClassIsBitSeven : Prop :=
  ∀ b : Byte,
    (b.getLsbD 7 = true → ∃ fb, decodeWire b = .framing fb ∧ fb.toByte = b) ∧
    (b.getLsbD 7 = false → ∃ v, decodeWire b = .payload v ∧ payloadByte v = b)

/-- R62: in a frame that has room for them, the roles of the payload bytes go by position. -/
def Obligations.RolesGoByPosition : Prop :=
  ∀ (fb : FramingByte) (p : Nat), fb.idl + 1 ≤ fb.tl → p < fb.tl →
    (p = 0 → roleAt fb p = .id0) ∧
    (1 ≤ p → p < fb.idl → roleAt fb p = .idk p) ∧
    (∀ j, p = fb.idl + j → j < fb.dn → roleAt fb p = .datj j) ∧
    (p = fb.tl - 1 → roleAt fb p = .cry)

/-- R80: the numbers of the error kinds. -/
def Obligations.ErrorKindCodes : Prop :=
  (∀ s : State, (s.hkind = .noFailure → s.statusPort.stHkind = 0#3) ∧
    (s.hkind = .decodeIncomplete → s.statusPort.stHkind = 3#3) ∧
    (s.hkind = .transportClosed → s.statusPort.stHkind = 4#3)) ∧
  (∀ s : State, (s.err = none → s.errKind = none) ∧ (s.err = some .lengthMismatch → s.errKind = some 1#3) ∧
    (s.err = some .shortFrame → s.errKind = some 2#3))

/-! ## Reset and the system operations -/

/-- R33: the state after reset, in the fields the spec gives a value. -/
def Obligations.ResetStateAsTheTable : Prop :=
  State.reset.cnt = 0 ∧ State.reset.halt = false ∧ State.reset.hkind = .noFailure ∧ State.reset.ovf = false ∧
    (∀ id, State.reset.cache.read id = none) ∧ State.reset.out = none ∧ State.reset.err = none

/-- R180: `RESET` in any state, by any step word with `rst` = 1; `BUF` is not written. -/
def Obligations.ResetOperation : Prop :=
  (∀ s : State, exec .reset s =
    .next { s with cnt := 0, halt := false, hkind := .noFailure, ovf := false, cache := [], out := none, err := none }) ∧
  (∀ w : StepWord, w.getLsbD 10 = true → decodeStep w = .reset)

/-- R181: `CLOSE` halts with the kind, mid-frame read as `CNT` > 0, and leaves `CNT`, `BUF`, `CACHE` and `OVF`; halted, it is
ignored. -/
def Obligations.CloseHaltsWithKind : Prop :=
  ∀ s : State, exec .close s =
    .next { s with
      halt := true
      hkind := if s.halt then s.hkind else if 0 < s.cnt.val then .decodeIncomplete else .transportClosed
      out := none
      err := none }

/-- R182: in the halted state every event but `RESET` is ignored, with no record and no pulse; a query is served; `RESET`
leaves the state. -/
def Obligations.HaltedCoreIgnoresEvents : Prop :=
  ∀ (s : State) (c : Bool) (v : BitVec 7) (fb : FramingByte) (q : Ident), s.halt = true →
    exec .nop s = .next { s with out := none, err := none } ∧
    exec (.acc c v) s = .next { s with out := none, err := none } ∧
    exec (.frm c fb) s = .next { s with out := none, err := none } ∧
    exec .close s = .next { s with out := none, err := none } ∧
    exec (.payload v) s = .next { s with out := none, err := none } ∧
    exec (.framing fb) s = .next { s with out := none, err := none } ∧
    exec (.query q) s = .next { s with query := some (s.answer q) } ∧
    (∃ t, exec .reset s = .next t ∧ t.halt = false)

/-- R183: a byte with a close is the byte's operation and then `CLOSE`, as in two steps, with the byte's own outputs kept. -/
def Obligations.ByteThenCloseInOneStep : Prop :=
  ∀ (s : State) (v : BitVec 7) (fb : FramingByte),
    (∃ t u, exec (.acc false v) s = .next t ∧ exec .close t = .next u ∧
      exec (.acc true v) s = .next { u with out := t.out, err := t.err } ∧
      (s.halt = false → u.halt = true ∧ u.hkind = .decodeIncomplete)) ∧
    (∃ t u, exec (.frm false fb) s = .next t ∧ exec .close t = .next u ∧
      exec (.frm true fb) s = .next { u with out := t.out, err := t.err } ∧
      (s.halt = false → u.halt = true ∧ u.hkind = .transportClosed))

/-! ## The framer -/

/-- R100: a payload byte is ignored while halted; else it is stored in `BUF[CNT]` if `CNT` < 15 and counted up to 16; no record
and no pulse. With `c` = 1 the close in mid-frame follows. -/
def Obligations.PayloadByteStoredAndCounted : Prop :=
  ∀ (s : State) (c : Bool) (v : BitVec 7),
    (s.halt = true → exec (.acc c v) s = .next { s with out := none, err := none } ∧
      exec (.payload v) s = .next { s with out := none, err := none }) ∧
    (s.halt = false →
      exec (.acc c v) s =
        .next { s with
          buf := if s.cnt.val < 15 then s.buf.setIfInBounds s.cnt.val (0#1 ++ v) else s.buf
          cnt := Fin.ofNat 17 (if s.cnt.val < 16 then s.cnt.val + 1 else s.cnt.val)
          halt := c
          hkind := if c then .decodeIncomplete else s.hkind
          out := none
          err := none } ∧
      exec (.payload v) s =
        .next { s with
          buf := if s.cnt.val < 15 then s.buf.setIfInBounds s.cnt.val (0#1 ++ v) else s.buf
          cnt := Fin.ofNat 17 (if s.cnt.val < 16 then s.cnt.val + 1 else s.cnt.val)
          out := none
          err := none })

/-- R102: `NOP` changes no state and drives no output, in every state. -/
def Obligations.NopChangesNothing : Prop :=
  ∀ s : State, exec .nop s = .next { s with out := none, err := none }

/-- R209: what a drop does: `CNT` cleared, a pulse with the kind for this step only, no record, nothing else (the model's
transient fields are blank after every frame, log entry 8). With `c` = 1 the close between frames follows. -/
def Obligations.MalformedFrameIsDropped : Prop :=
  ∀ (s : State) (c : Bool) (fb : FramingByte) (kind : DropKind), s.halt = false →
    refDecode s.cnt.val (bufRead s.buf) fb = .malformed kind →
    exec (.frm c fb) s =
      .next { s with
        cnt := 0, err := some kind, out := none, halt := c, hkind := if c then .transportClosed else s.hkind
        work := Work.blank, decoded := none, mask := none } ∧
    exec (.framing fb) s =
      .next { s with cnt := 0, err := some kind, out := none, work := Work.blank, decoded := none, mask := none } ∧
    (∀ t, exec (.frm c fb) s = .next t ∨ exec (.framing fb) s = .next t → exec .nop t = .next { t with err := none })

/-- R101, R150: a framing byte that closes a decodable frame: the frame is observed at this step's `now`, and a record is driven
exactly when a mask is returned; `CNT` is cleared, nothing else changes but what `OBSERVE` writes. -/
def Obligations.GoodFrameIsObservedAndEmitted : Prop :=
  ∀ (s : State) (c : Bool) (fb : FramingByte) (f : DecodedFrame), s.halt = false →
    refDecode s.cnt.val (bufRead s.buf) fb = .ok f →
    exec (.frm c fb) s =
      .next { s with
        cnt := 0
        cache := (refObserve s.cfg s.cache f.id f.data s.now).2.1
        ovf := s.ovf || (refObserve s.cfg s.cache f.id f.data s.now).2.2
        out := (refObserve s.cfg s.cache f.id f.data s.now).1.map (fun m => outRecord f m s.now)
        err := none
        halt := c, hkind := if c then .transportClosed else s.hkind
        work := Work.blank, decoded := none, mask := none } ∧
    exec (.framing fb) s =
      .next { s with
        cnt := 0
        cache := (refObserve s.cfg s.cache f.id f.data s.now).2.1
        ovf := s.ovf || (refObserve s.cfg s.cache f.id f.data s.now).2.2
        out := (refObserve s.cfg s.cache f.id f.data s.now).1.map (fun m => outRecord f m s.now)
        err := none
        work := Work.blank, decoded := none, mask := none }

/-- R101, R9: `FRM` is `DECODE`, then `CNT <- 0`, then on success `OBSERVE`, then on a mask `EMIT`, each by its own meaning. -/
def Obligations.FrmRunsTheInternalOperations : Prop :=
  ∀ (s : State) (fb : FramingByte) (f : DecodedFrame), s.halt = false →
    refDecode s.cnt.val (bufRead s.buf) fb = .ok f →
    ∃ s1 s2 s3, exec (.decode fb) { s with out := none, err := none } = .next s1 ∧ s1.decoded = some (.ok f) ∧
      exec .observe { s1 with cnt := 0 } = .next s2 ∧ exec .emit s2 = .next s3 ∧
      exec (.framing fb) s = .next { s3 with work := Work.blank, decoded := none, mask := none }

/-! ## The decoder -/

/-- R64 to R67: what each byte role contributes to the frame being decoded, and that it changes nothing else. That these act on
working values held in State is the model's choice (log entry 7). -/
def Obligations.ByteRolesContribute : Prop :=
  ∀ s : State,
    (∀ e v, exec (.id0 e v) s = .next { s with work := { s.work with ext := e, id := v.setWidth 34 } }) ∧
    (∀ k v, exec (.idk k v) s =
      .next { s with work := { s.work with id := s.work.id ||| (v.setWidth 34 <<< (6 + 7 * (k - 1))) } }) ∧
    (∀ c, exec (.cry c) s = .next { s with work := { s.work with carry := BitVec.ofBool s.work.c7 ++ c } }) ∧
    (∀ j d, exec (.datj j d) s =
      .next { s with work := { s.work with
        data := s.work.data.setIfInBounds j (BitVec.ofBool (s.work.carry.getLsbD 7) ++ d)
        carry := s.work.carry <<< 1 } })

/-- R120 with the closed forms R70, R71 and the checks R122, R123: `DECODE` writes no architectural state and its result is the
closed form's, whatever the buffer holds. -/
def Obligations.DecodeGivesTheClosedForm : Prop :=
  ∀ (s : State) (fb : FramingByte), ∃ w, exec (.decode fb) s =
    .next { s with work := w, decoded := some (refDecode s.cnt.val (bufRead s.buf) fb) }

/-- R120, R124: the working values `DECODE` ends with are those of the byte roles performed on the frame's bytes: `ID0`, the
`IDk` in rising order, `CRY`, the `DATj` from the last to the first (log entry 7). -/
def Obligations.DecodeIsTheRolesInOrder : Prop :=
  ∀ (s : State) (fb : FramingByte), s.cnt.val = fb.tl → fb.idl + 1 ≤ fb.tl →
    let positions := List.range fb.idl ++ [fb.tl - 1] ++ (List.range' fb.idl fb.dn).reverse
    let role := fun (p : Nat) (r : Host.Outcome State Fault Refusal) =>
      andThen r (fun t => match decodeRole (roleAt fb p) (payloadByte (low7 (bufRead s.buf p))) with
        | .ok i => exec i t
        | .error _ => .next t)
    ∃ t u, exec (.decode fb) s = .next t ∧
      positions.foldl (fun r p => role p r) (.next { s with work := Work.start fb }) = .next u ∧ u.work = t.work

/-- R73, R208 (a): when a frame is rejected and with which kind, and that every other frame is accepted with `dn` data
bytes. -/
def Obligations.RejectedExactlyWhen : Prop :=
  ∀ (buf : Vector Byte 15) (n : Fin 17) (fb : FramingByte),
    (decodeFrame buf n fb = .malformed .lengthMismatch ↔ n.val ≠ fb.tl) ∧
    (decodeFrame buf n fb = .malformed .shortFrame ↔ n.val = fb.tl ∧ fb.tl < fb.idl + 1) ∧
    ((∃ f, decodeFrame buf n fb = .ok f ∧ f.data.length = fb.dn) ↔ n.val = fb.tl ∧ fb.idl + 1 ≤ fb.tl)

/-- R72 (a), R130: carry bits that no data byte takes do not change the result; with no data bytes the whole carry, the framing
byte's bit 6 included, is ignored. -/
def Obligations.UnusedCarryBitsIgnored : Prop :=
  ∀ (buf buf' : Vector Byte 15) (n : Fin 17) (fb fb' : FramingByte), fb'.ll = fb.ll → fb'.nnnn = fb.nnnn →
    (∀ p, p + 1 < fb.tl → bufRead buf' p = bufRead buf p) →
    (∀ b, b < 8 → 8 ≤ b + fb.dn → (refCarry (bufRead buf') fb').getLsbD b = (refCarry (bufRead buf) fb).getLsbD b) →
    fb.idl + 1 ≤ fb.tl →
    decodeFrame buf' n fb' = decodeFrame buf n fb

/-- R129: an over-long frame is decoded: `dn` data bytes, the last 8 with bit 7 from the carry, the first `dn - 8` with
bit 7 = 0, and its record says `out_overlong`. -/
def Obligations.OverlongFrameDecoded : Prop :=
  ∀ (buf : Vector Byte 15) (n : Fin 17) (fb : FramingByte), n.val = fb.tl → fb.idl + 1 ≤ fb.tl → 8 < fb.dn →
    ∃ f, decodeFrame buf n fb = .ok f ∧ f.data.length = fb.dn ∧ f.data.length ≤ 12 ∧
      (∀ j, j < fb.dn - 8 → (f.data.getD j 0#8).getLsbD 7 = false) ∧
      (∀ b, b < 8 → (f.data.getD (fb.dn - 8 + b) 0#8).getLsbD 7 = (refCarry (bufRead buf) fb).getLsbD b) ∧
      (∀ m now, (outRecord f m now).outOverlong = true ∧ (outRecord f m now).outLen = BitVec.ofNat 4 fb.dn)

/-- R104: a core that keeps 15 bytes and counts to 16 decodes, for every stream, as one that keeps every byte: any payload
bytes, fed after a frame has ended, closed by any framing byte. -/
def Obligations.BoundedBufferLosesNothing : Prop :=
  ∀ (s : State) (bs : List Byte) (now : Nat) (rest : List PinSample) (fb : FramingByte),
    s.halt = false → s.cnt = 0 → (∀ b ∈ bs, b.getLsbD 7 = false) → s.pins = bs.map (byteSample now) ++ rest →
    ∃ u, run bs.length s = .next u ∧ u.pins = rest ∧ u.cache = s.cache ∧ u.ovf = s.ovf ∧ u.halt = false ∧
      u.cnt.val = min bs.length 16 ∧
      decodeFrame u.buf u.cnt fb = refDecode bs.length (fun i => bs.getD i 0#8) fb

/-- R133: feeding the bytes of `ENC(id, ext, idl, data)` to a core with `CNT` = 0 and `HALT` = 0 ends in a `DECODE` that
returns `Ok(id, ext, data)`; the step of the framing byte then raises no error, and the cache holds that data unless it was
full. -/
def Obligations.EncodedFrameIsRecovered : Prop :=
  ∀ (s : State) (a : EncArgs) (now : Nat) (rest : List PinSample),
    s.halt = false → s.cnt = 0 → a.wf = true → s.pins = (encFrame a).map (byteSample now) ++ rest →
    ∃ u t, run a.payload.length s = .next u ∧
      u.nextSample = byteSample now a.framing.toByte ∧
      decodeFrame u.buf u.cnt a.framing = .ok { id := a.id, ext := a.ext, data := a.data } ∧
      step u = .next t ∧ t.pins = rest ∧ t.cnt = 0 ∧ t.err = none ∧ t.halt = false ∧
      (hasRoom s.cfg s.cache = true → ∃ e, t.cache.read a.id = some e ∧ e.lastData = a.data)

/-- R201, R243, R245 (a): payload bytes whose number is not what the framing byte declares, fed to a core with `CNT` = 0: one
`LengthMismatch` pulse, `CNT` = 0 and the cache as it was, whatever the bytes are. -/
def Obligations.WrongCountIsDropped : Prop :=
  ∀ (s : State) (bs : List Byte) (fb : FramingByte) (now : Nat) (rest : List PinSample),
    s.halt = false → s.cnt = 0 → (∀ b ∈ bs, b.getLsbD 7 = false) → bs.length ≠ fb.tl →
    s.pins = (bs ++ [fb.toByte]).map (byteSample now) ++ rest →
    ∃ t, run (bs.length + 1) s = .next t ∧ t.err = some .lengthMismatch ∧ t.out = none ∧ t.cnt = 0 ∧
      t.cache = s.cache ∧ t.ovf = s.ovf ∧ t.halt = false ∧ t.pins = rest

/-- R106, R211: from any point inside any frame, the byte after the next boundary marker starts a frame: an encoded frame that
follows it is recovered. -/
def Obligations.ResynchronisesAtTheNextMarker : Prop :=
  ∀ (s : State) (fb : FramingByte) (a : EncArgs) (now : Nat) (rest : List PinSample),
    s.halt = false → a.wf = true →
    s.pins = (fb.toByte :: encFrame a).map (byteSample now) ++ rest →
    ∃ u, run (a.payload.length + 1) s = .next u ∧
      u.nextSample = byteSample now a.framing.toByte ∧
      decodeFrame u.buf u.cnt a.framing = .ok { id := a.id, ext := a.ext, data := a.data }

/-! ## The cache -/

/-- R151: an unseen identifier with a free entry. -/
def Obligations.ObserveUnseen : Prop :=
  ∀ (s : State) (f : DecodedFrame), s.decoded = some (.ok f) → s.cache.read f.id = none → hasRoom s.cfg s.cache = true →
    exec .observe s =
      .next { s with
        cache := s.cache.write f.id
          { lastData := f.data, diffMask := List.replicate f.data.length true, lastSeen := s.now }
        mask := some (List.replicate f.data.length true) }

/-- R156: an unseen identifier and a full cache: nothing stored, `OVF` set, the all-true mask returned. -/
def Obligations.ObserveUnseenWhenFull : Prop :=
  ∀ (s : State) (f : DecodedFrame) (n : Nat), s.decoded = some (.ok f) → s.cache.read f.id = none →
    s.cfg.cacheEntries = some n → n ≤ s.cache.length →
    exec .observe s = .next { s with ovf := true, mask := some (List.replicate f.data.length true) }

/-- R152: seen and identical: no mask, and the entry, `last_seen` included, is not touched. -/
def Obligations.ObserveIdentical : Prop :=
  ∀ (s : State) (f : DecodedFrame) (e : Entry), s.decoded = some (.ok f) → s.cache.read f.id = some e →
    e.lastData = f.data → exec .observe s = .next { s with mask := none }

/-- R153, R164: seen, same length, differing: the element-wise mask, and the entry overwritten. -/
def Obligations.ObserveSameLengthDiffers : Prop :=
  ∀ (s : State) (f : DecodedFrame) (e : Entry), s.decoded = some (.ok f) → s.cache.read f.id = some e →
    e.lastData.length = f.data.length → e.lastData ≠ f.data →
    ∃ m, exec .observe s =
      .next { s with
        cache := s.cache.write f.id { lastData := f.data, diffMask := m, lastSeen := s.now }, mask := some m } ∧
      m.length = f.data.length ∧ true ∈ m ∧
      ∀ j, j < f.data.length → m.getD j false = decide (f.data.getD j 0#8 ≠ e.lastData.getD j 0#8)

/-- R154: seen but the length differs: the all-true mask of the new length, and the entry overwritten. -/
def Obligations.ObserveLengthDiffers : Prop :=
  ∀ (s : State) (f : DecodedFrame) (e : Entry), s.decoded = some (.ok f) → s.cache.read f.id = some e →
    e.lastData.length ≠ f.data.length →
    exec .observe s =
      .next { s with
        cache := s.cache.write f.id
          { lastData := f.data, diffMask := List.replicate f.data.length true, lastSeen := s.now }
        mask := some (List.replicate f.data.length true) }

/-- R150 ("run only when `DECODE` returned `Ok`"): without a decoded frame `OBSERVE` and `EMIT` do nothing, and without a mask
`EMIT` does nothing (R158). That they can be run so at all is the model's choice (log entry 8). -/
def Obligations.NothingToObserveOrEmit : Prop :=
  ∀ s : State, ((∀ f, s.decoded ≠ some (.ok f)) → exec .observe s = .next s ∧ exec .emit s = .next s) ∧
    (s.mask = none → exec .emit s = .next s)

/-- R162: the second of two observations of the same fields returns none and writes nothing, unless the identifier did not
fit the cache, when it returns the all-true mask again. -/
def Obligations.ObserveTwice : Prop :=
  ∀ (s t : State) (f : DecodedFrame) (later : Nat), s.decoded = some (.ok f) → exec .observe s = .next t →
    (hasRoom s.cfg s.cache = true ∨ s.cache.read f.id ≠ none →
      exec .observe { t with now := later } = .next { t with now := later, mask := none }) ∧
    (hasRoom s.cfg s.cache = false → s.cache.read f.id = none →
      exec .observe { t with now := later } = .next { t with now := later } ∧
        t.mask = some (List.replicate f.data.length true))

/-- R247, R166: `extended` is no part of the key and is not compared: the cache, the mask and `OVF` after `OBSERVE` are the same
for both values of it. -/
def Obligations.ExtendedIsNotInTheKey : Prop :=
  ∀ (s : State) (f : DecodedFrame) (ext : Bool), s.decoded = some (.ok f) →
    ∃ t, exec .observe s = .next t ∧
      exec .observe { s with decoded := some (.ok { f with ext := ext }) } =
        .next { t with decoded := some (.ok { f with ext := ext }) }

/-- R157: `EMIT` drives one record laid out as R30 says, elements beyond the length 0. -/
def Obligations.EmitDrivesTheRecord : Prop :=
  ∀ (s : State) (f : DecodedFrame) (m : Mask), s.decoded = some (.ok f) → s.mask = some m →
    m.length = f.data.length →
    ∃ r, exec .emit s = .next { s with out := some r } ∧ r.outId = f.id ∧ r.outExt = f.ext ∧
      r.outLen = BitVec.ofNat 4 f.data.length ∧ r.outTime = s.now ∧ (r.outOverlong = true ↔ 8 < f.data.length) ∧
      (∀ i : Fin 12, i.val < f.data.length → r.outData[i] = f.data.getD i.val 0#8 ∧ r.outMask[i] = m.getD i.val false) ∧
      (∀ i : Fin 12, f.data.length ≤ i.val → r.outData[i] = 0#8 ∧ r.outMask[i] = false)

/-- R161, R50: a query answers from the cache at this step's `now`, in every state, and writes nothing but the query port. -/
def Obligations.QueryAnswersFromTheCache : Prop :=
  ∀ (s : State) (q : Ident),
    (s.cache.read q = none → exec (.query q) s = .next { s with query := some .miss }) ∧
    (∀ e, s.cache.read q = some e → ∃ h, exec (.query q) s = .next { s with query := some (.hit h) } ∧
      h.qLen = BitVec.ofNat 4 e.lastData.length ∧ h.qLastSeen = e.lastSeen ∧
      h.qFresh = decide (((s.now : Int) - (e.lastSeen : Int)) % ((2 ^ s.cfg.tw : Nat) : Int) ≤ 2) ∧
      ∀ i : Fin 12, h.qData[i] = e.lastData.getD i.val 0#8 ∧ h.qMask[i] = e.diffMask.getD i.val false ∧
        h.qEffMask[i] = (e.diffMask.getD i.val false && h.qFresh))

/-- R159, R246: an entry is fresh at ages 0, 1 and 2 and stale at every other age below 2^`TW`, across the wrap of `now`. -/
def Obligations.FreshForTwoTicks : Prop :=
  ∀ (p : Config.Params) (e : Entry) (d : Nat), p.wf = true → e.lastSeen < 2 ^ p.tw → d < 2 ^ p.tw →
    (fresh p.tw ((e.lastSeen + d) % 2 ^ p.tw) e = true ↔ d ≤ 2)

/-- R160: a stale entry shows no change, a fresh one its stored mask, and the stored mask is shown beside it unchanged. -/
def Obligations.StaleEntryShowsNoChange : Prop :=
  ∀ (s t : State) (q : Ident) (h : QueryHit), exec (.query q) s = .next t → t.query = some (.hit h) →
    t.cache = s.cache ∧ (h.qFresh = true → h.qEffMask = h.qMask) ∧
      (h.qFresh = false → h.qEffMask = Vector.replicate 12 false)

/-! ## Steps -/

/-- R9: a step performs the operation its pins select, on the state with the pins sampled; a query beside it is served first
(R50). -/
def Obligations.StepRunsTheSelectedOperation : Prop :=
  ∀ (s : State) (p : PinSample) (rest : List PinSample), s.pins = p :: rest →
    (p.queryWord.getLsbD 34 = false →
      step s = exec (decodeIngest p.ingest) { s with pins := rest, now := p.now % 2 ^ s.cfg.tw, query := none }) ∧
    (p.queryWord.getLsbD 34 = true → ∃ t,
      exec (.query (p.queryWord.extractLsb' 0 34)) { s with pins := rest, now := p.now % 2 ^ s.cfg.tw, query := none } =
        .next t ∧
      step s = exec (decodeIngest p.ingest) t)

/-- U9, R105: with nothing presented the core waits: the step is a `NOP` and every part of the state R20 lists is kept (that
an empty list of samples means idle pins is the model's choice, log entry 3). -/
def Obligations.SilentTransportIsAWait : Prop :=
  ∀ s : State, s.pins = [] → s.now < 2 ^ s.cfg.tw →
    step s = .next { s with out := none, err := none, query := none }

/-- R12: every step of every state ends in a next state; nothing faults and nothing is refused. -/
def Obligations.EveryStepCompletes : Prop :=
  ∀ s : State, ∃ t, step s = .next t

/-- R50: the query of a step reads the state before the step's ingest operation at the step's `now`, and takes nothing away
from that operation. -/
def Obligations.QueryReadsBeforeTheIngest : Prop :=
  ∀ (s : State) (p : PinSample) (rest : List PinSample) (q : Ident),
    s.pins = { p with queryWord := 1#1 ++ q } :: rest →
    ∃ t, step { s with pins := { p with queryWord := 0#35 } :: rest } = .next t ∧ t.query = none ∧
      step s = .next { t with query := some (({ s with now := p.now % 2 ^ s.cfg.tw } : State).answer q) }

/-- R30, R31: a record or a pulse is there only after a step that closed a frame on a running core, an error pulse exactly when
that frame was rejected, with its kind, and a record only when it was decoded. -/
def Obligations.PulsesOnlyWhenAFrameEnds : Prop :=
  ∀ s t : State, step s = .next t → s.presented ≠ .reset →
    ((∀ c fb, s.presented ≠ .frm c fb ∧ s.presented ≠ .framing fb) ∨ s.halt = true → t.out = none ∧ t.err = none) ∧
    (∀ c fb, s.presented = .frm c fb ∨ s.presented = .framing fb → s.halt = false →
      (∀ kind, t.err = some kind ↔ decodeFrame s.buf s.cnt fb = .malformed kind) ∧
      (t.out ≠ none → ∃ f, decodeFrame s.buf s.cnt fb = .ok f))

/-- R24: no step changes the parameters (held in State by the model's choice, log entry 1). -/
def Obligations.ParametersNeverChange : Prop :=
  ∀ s t : State, step s = .next t → t.cfg = s.cfg

/-- R23: once set, neither `HALT` nor `OVF` is cleared by any step but `RESET`, and `HKIND` stays with `HALT`. -/
def Obligations.FlagsAreSticky : Prop :=
  ∀ s t : State, step s = .next t → s.presented ≠ .reset →
    (s.halt = true → t.halt = true ∧ t.hkind = s.hkind) ∧ (s.ovf = true → t.ovf = true)

/-- R182: the halted state is a stop for good: any number of steps without a `RESET` leaves all of R20's state as it was and
drives no record and no pulse. -/
def Obligations.HaltedUntilReset : Prop :=
  ∀ (k : Nat) (s t : State), s.halt = true → s.out = none → s.err = none →
    (∀ p ∈ s.pins, decodeIngest p.ingest ≠ .reset) → run k s = .next t →
    t.halt = true ∧ t.hkind = s.hkind ∧ t.cnt = s.cnt ∧ t.buf = s.buf ∧ t.cache = s.cache ∧ t.ovf = s.ovf ∧
      t.out = none ∧ t.err = none

/-- R26 (d), R166: an entry, once present, stays present until `RESET`. -/
def Obligations.EntriesPersist : Prop :=
  ∀ (s t : State) (id : Ident), step s = .next t → s.presented ≠ .reset → s.cache.read id ≠ none →
    t.cache.read id ≠ none

/-- R45, R27: a step changes at most the entry of the identifier it decoded: every other identifier's entry is as before, and a
step that closes no decodable frame changes none. -/
def Obligations.OnlyTheDecodedIdentifierChanges : Prop :=
  ∀ (s t : State) (id : Ident), step s = .next t → s.presented ≠ .reset →
    (∀ c fb f, s.presented = .frm c fb ∨ s.presented = .framing fb →
      decodeFrame s.buf s.cnt fb = .ok f → f.id ≠ id) →
    t.cache.read id = s.cache.read id

/-- R152, R155, R158: a step that drives no record leaves the whole cache, every `last_seen` included, as it was. -/
def Obligations.NoRecordNoCacheChange : Prop :=
  ∀ s t : State, step s = .next t → s.presented ≠ .reset → t.out = none → t.cache = s.cache ∧ t.ovf = s.ovf

/-- R157, R163: a record shows the entry just written, with the step's `now` as its time, or the identifier did not fit the cache
and `OVF` is set. -/
def Obligations.RecordShowsTheStoredEntry : Prop :=
  ∀ (s t : State) (r : OutRecord), step s = .next t → t.out = some r → r.outTime = t.now ∧
    ((∃ e, t.cache.read r.outId = some e ∧ e.lastSeen = r.outTime ∧ portLen e.lastData = r.outLen ∧
        portData e.lastData = r.outData ∧ portMask e.diffMask = r.outMask) ∨
      (t.cache.read r.outId = none ∧ t.ovf = true))

/-- R156: with the unbounded cache `OVF` is never set. -/
def Obligations.UnboundedCacheNeverOverflows : Prop :=
  ∀ s t : State, s.cfg.cacheEntries = none → step s = .next t → t.ovf = true → s.ovf = true

/-- R21, R132: no step lets anything depend on a dead buffer register: two states that differ only there step to states that
differ only there. -/
def Obligations.DeadRegistersAreNeverRead : Prop :=
  ∀ s s' : State, s.sameButDeadBytes s' →
    ∃ t t', step s = .next t ∧ step s' = .next t' ∧ t.sameButDeadBytes t'

/-- The invariant holds after reset (R26, R28, R33). It is also a statement about the values the model chose for `State.reset`
(log entries 1, 6, 14). -/
def Obligations.InvariantAtReset : Prop := State.reset.Inv

/-- R26, R28 (b), R208 (d), R30, R20: the invariant is kept by every step from every state that meets it. -/
def Obligations.InvariantKeptByEveryStep : Prop :=
  ∀ s t : State, s.Inv → step s = .next t → t.Inv

/-- D10, R156: a run without `RESET` that ends with `OVF` = 0 is the run of the core with an unbounded cache: same state, same
outputs. -/
def Obligations.NoOverflowMeansUnboundedRun : Prop :=
  ∀ (k : Nat) (s t : State), (∀ p ∈ s.pins, decodeIngest p.ingest ≠ .reset) → run k s = .next t → t.ovf = false →
    run k s.unbounded = .next t.unbounded
end

