-- ==== Sys2Proof/Laws/Cache.lean ====
section
/-! SUPPORT. The cache as memory: what a read sees after a write, and that every write keeps the canonical form. -/

namespace Sys2Proof.Machine

/-- Reading the identifier just written gives the entry written. -/
@[simp] theorem Cache.read_write_same (c : Cache) (id : Ident) (e : Entry) : (Cache.write c id e).read id = some e := by
  induction c with
  | nil => simp [Cache.write, Cache.read]
  | cons p c ih =>
    obtain ⟨key, x⟩ := p
    simp only [Cache.write]
    split
    · simp [Cache.read]
    · split
      · simp [Cache.read]
      · rename_i h
        simp [Cache.read, h, ih]

/-- A write leaves every other identifier alone. -/
theorem Cache.read_write_other (c : Cache) {id id' : Ident} (e : Entry) (h : id' ≠ id) :
    (Cache.write c id e).read id' = c.read id' := by
  induction c with
  | nil => simp [Cache.write, Cache.read, h.symm]
  | cons p c ih =>
    obtain ⟨key, x⟩ := p
    simp only [Cache.write]
    split
    · simp [Cache.read, h.symm]
    · split
      · rename_i hk
        subst hk
        simp [Cache.read, h.symm]
      · simp [Cache.read, ih]

/-- What a write can hold: the entry written, or what was there. -/
theorem Cache.mem_write {c : Cache} {id : Ident} {e : Entry} {p : Ident × Entry} (h : p ∈ Cache.write c id e) :
    p = (id, e) ∨ p ∈ c := by
  induction c with
  | nil => simpa [Cache.write] using h
  | cons q c ih =>
    obtain ⟨key, x⟩ := q
    simp only [Cache.write] at h
    split at h
    · simpa using h
    · split at h
      · rcases List.mem_cons.mp h with h | h
        · exact .inl h
        · exact .inr (List.mem_cons_of_mem _ h)
      · rcases List.mem_cons.mp h with h | h
        · exact .inr (h ▸ List.mem_cons_self)
        · exact (ih h).elim .inl fun h => .inr (List.mem_cons_of_mem _ h)

/-- Every write keeps the canonical form. -/
theorem Cache.write_wf {c : Cache} (id : Ident) (e : Entry) (h : c.wf) : (Cache.write c id e).wf := by
  induction c with
  | nil => simp [Cache.write]
  | cons p c ih =>
    obtain ⟨key, x⟩ := p
    obtain ⟨hlt, hc⟩ := List.pairwise_cons.mp h
    simp only [Cache.write]
    split
    · rename_i hk
      refine List.pairwise_cons.mpr ⟨fun q hq => ?_, h⟩
      rcases List.mem_cons.mp hq with rfl | hq
      · exact hk
      · exact BitVec.lt_trans hk (hlt q hq)
    · split
      · rename_i hk
        subst hk
        exact List.pairwise_cons.mpr ⟨hlt, hc⟩
      · rename_i hlt' hne
        refine List.pairwise_cons.mpr ⟨fun q hq => ?_, ih hc⟩
        rcases Cache.mem_write hq with rfl | hq
        · have : key.toNat ≠ id.toNat := fun h => hne (BitVec.eq_of_toNat_eq h)
          simp only [BitVec.lt_def] at hlt' ⊢
          omega
        · exact hlt q hq

/-- Writing an identifier that has no entry adds one. -/
theorem Cache.length_write_new {c : Cache} {id : Ident} (e : Entry) (h : c.read id = none) :
    (Cache.write c id e).length = c.length + 1 := by
  induction c with
  | nil => simp [Cache.write]
  | cons p c ih =>
    obtain ⟨key, x⟩ := p
    simp only [Cache.read] at h
    split at h
    · cases h
    · rename_i hne
      simp only [Cache.write]
      split
      · simp
      · simp [ih h]

/-- A listed identifier is found, and found only where it is listed. -/
theorem Cache.mem_of_read {c : Cache} {id : Ident} {e : Entry} (h : c.read id = some e) : (id, e) ∈ c := by
  induction c with
  | nil => cases h
  | cons p c ih =>
    obtain ⟨key, x⟩ := p
    simp only [Cache.read] at h
    split at h
    · rename_i hk
      cases h
      subst hk
      exact List.mem_cons_self
    · exact List.mem_cons_of_mem _ (ih h)

/-- Overwriting an entry of a canonical cache keeps the number of entries. -/
theorem Cache.length_write_old {c : Cache} {id : Ident} {x : Entry} (e : Entry) (hc : c.wf) (h : c.read id = some x) :
    (Cache.write c id e).length = c.length := by
  induction c with
  | nil => cases h
  | cons p c ih =>
    obtain ⟨key, y⟩ := p
    obtain ⟨hlt, hc⟩ := List.pairwise_cons.mp hc
    simp only [Cache.read] at h
    split at h
    · rename_i hk
      subst hk
      simp [Cache.write, BitVec.lt_irrefl]
    · rename_i hne
      have hk : ¬ id < key := by
        have := hlt _ (Cache.mem_of_read h)
        simp only [BitVec.lt_def] at this ⊢
        omega
      simp [Cache.write, hk, hne, ih hc h]

/-- Equal memories are equal data: two canonical caches that read alike are the same list. -/
theorem Cache.ext_of_read {c d : Cache} (hc : c.wf) (hd : d.wf) (h : ∀ id, c.read id = d.read id) : c = d := by
  have below : ∀ {c : Cache} {key : Ident} {x : Entry} (id : Ident), Cache.wf ((key, x) :: c) → id < key →
      Cache.read ((key, x) :: c) id = none := by
    intro c key x id hw hlt
    cases hr : Cache.read ((key, x) :: c) id with
    | none => rfl
    | some e =>
      rcases List.mem_cons.mp (Cache.mem_of_read hr) with heq | hm
      · cases heq
        exact absurd hlt (BitVec.lt_irrefl _)
      · exact absurd (BitVec.lt_trans hlt ((List.pairwise_cons.mp hw).1 _ hm)) (BitVec.lt_irrefl _)
  induction c generalizing d with
  | nil =>
    cases d with
    | nil => rfl
    | cons q d => simpa [Cache.read] using h q.1
  | cons p c ih =>
    obtain ⟨key, x⟩ := p
    cases d with
    | nil => simpa [Cache.read] using h key
    | cons q d =>
      obtain ⟨key', y⟩ := q
      have hkey : key = key' := by
        have h1 : ¬ key < key' := fun hlt => by
          have := h key
          rw [below key hd hlt] at this
          simp [Cache.read] at this
        have h2 : ¬ key' < key := fun hlt => by
          have := h key'
          rw [below key' hc hlt] at this
          simp [Cache.read] at this
        apply BitVec.eq_of_toNat_eq
        simp only [BitVec.lt_def] at h1 h2
        omega
      subst hkey
      have hx : x = y := by simpa [Cache.read] using h key
      subst hx
      have hcd : c = d := by
        refine ih (List.pairwise_cons.mp hc).2 (List.pairwise_cons.mp hd).2 fun id => ?_
        by_cases hk : key = id
        · subst hk
          have none_of : ∀ {c : Cache}, Cache.wf ((key, x) :: c) → c.read key = none := by
            intro c hw
            cases hr : Cache.read c key with
            | none => rfl
            | some e => exact absurd ((List.pairwise_cons.mp hw).1 _ (Cache.mem_of_read hr)) (BitVec.lt_irrefl _)
          rw [none_of hc, none_of hd]
        · simpa [Cache.read, hk] using h id
      rw [hcd]

/-- With no limit there is always room (R156). -/
@[simp] theorem hasRoom_unbounded (c : Cache) (p : Config.Params) (h : p.cacheEntries = none) : hasRoom p c = true := by
  simp [hasRoom, h]

end Sys2Proof.Machine
end

