-- ==== Sys2Proof/Laws/Decoder.lean ====
section
/-! SUPPORT. The decoder: its loops have the closed forms of R70 and R71, its checks are those of R122 and R123, and it reads
nothing but its operands. -/

namespace Sys2Proof

/-! ### The framing byte -/

theorem FramingByte.idl_bounds (fb : FramingByte) : 2 ≤ fb.idl ∧ fb.idl ≤ 5 := by
  have := fb.ll.isLt
  simp only [FramingByte.idl]
  omega

theorem FramingByte.tl_le (fb : FramingByte) : fb.tl ≤ 15 := by
  have := fb.nnnn.isLt
  simp only [FramingByte.tl]
  omega

/-- `MAX_DATA` = 15 - 2 - 1 (R5). -/
theorem FramingByte.dn_le (fb : FramingByte) : fb.dn ≤ 12 := by
  have := fb.tl_le
  have := fb.idl_bounds
  simp only [FramingByte.dn]
  omega

end Sys2Proof

namespace Sys2Proof.Machine

/-! ### The checks -/

theorem frameCheck_eq_lengthMismatch {n : Fin 17} {fb : FramingByte} :
    frameCheck n fb = some .lengthMismatch ↔ n.val ≠ fb.tl := by
  simp only [frameCheck]
  split
  · simpa
  · split <;> simp_all

theorem frameCheck_eq_shortFrame {n : Fin 17} {fb : FramingByte} :
    frameCheck n fb = some .shortFrame ↔ n.val = fb.tl ∧ fb.tl < fb.idl + 1 := by
  simp only [frameCheck]
  split
  · simp_all
  · split <;> simp_all

theorem frameCheck_eq_none {n : Fin 17} {fb : FramingByte} :
    frameCheck n fb = none ↔ n.val = fb.tl ∧ fb.idl + 1 ≤ fb.tl := by
  simp only [frameCheck]
  split
  · simp_all
  · split <;> simp_all

/-! ### Step 5: the data loop -/

/-- Bit 7 comes from the carry's top bit, the rest from the byte. -/
theorem dataByte_eq_append (carry : Byte) (d : BitVec 7) :
    (carry &&& 0x80#8) ||| d.setWidth 8 = BitVec.ofBool (carry.getLsbD 7) ++ d := by
  apply BitVec.eq_of_getLsbD_eq
  intro i hi
  have h80 : (0x80#8).getLsbD i = decide (i = 7) := by
    revert i
    decide
  simp only [BitVec.getLsbD_or, BitVec.getLsbD_and, h80, BitVec.getLsbD_setWidth, BitVec.getLsbD_append,
    BitVec.getLsbD_ofBool, hi, decide_true, Bool.true_and]
  by_cases h : i < 7
  · have : i ≠ 7 := by omega
    simp [h, this]
  · have : i = 7 := by omega
    subst this
    simp

/-- The loop leaves alone everything but the carry and the data. -/
theorem takeData_frame (buf : Vector Byte 15) (idl dn : Nat) (w : Work) :
    (takeData buf idl dn w).id = w.id ∧ (takeData buf idl dn w).ext = w.ext ∧ (takeData buf idl dn w).c7 = w.c7 := by
  induction dn generalizing w with
  | zero => exact ⟨rfl, rfl, rfl⟩
  | succ dn ih => exact ih _

/-- R128: data byte `j` takes bit 7 of the carry shifted once for each data byte after it; elements beyond `dn` are not
touched. -/
theorem takeData_getElem (buf : Vector Byte 15) (idl dn : Nat) (w : Work) (j : Nat) (hj : j < 12) (hdn : dn ≤ 12) :
    (takeData buf idl dn w).data[j] =
      if j < dn then BitVec.ofBool ((w.carry <<< (dn - 1 - j)).getLsbD 7) ++ low7 (bufRead buf (idl + j))
      else w.data[j] := by
  induction dn generalizing w with
  | zero => simp [takeData]
  | succ dn ih =>
    rw [takeData, ih _ (by omega)]
    by_cases h : j < dn
    · have h1 : j < dn + 1 := by omega
      have h2 : dn + 1 - 1 - j = 1 + (dn - 1 - j) := by omega
      rw [if_pos h, if_pos h1, h2, BitVec.shiftLeft_add]
      rfl
    · by_cases h1 : j = dn
      · subst h1
        simp [Work.takeDatj, dataByte_eq_append]
      · have h2 : ¬ j < dn + 1 := by omega
        simp only [h, h2, if_false, Work.takeDatj]
        exact Vector.getElem_setIfInBounds_ne _ (fun h => h1 h.symm)

/-! ### Step 4: the identifier -/

/-- R70: the identifier loop is the closed form, for each number of identifier bytes. -/
theorem takeIdentifier_eq (buf : Vector Byte 15) (idl : Nat) (w : Work) (h : 2 ≤ idl ∧ idl ≤ 5) :
    takeIdentifier buf idl w = { w with ext := (bufRead buf 0).getLsbD 6, id := refIdent (bufRead buf) idl } := by
  have hcases : idl = 2 ∨ idl = 3 ∨ idl = 4 ∨ idl = 5 := by omega
  rcases hcases with rfl | rfl | rfl | rfl <;>
    simp [takeIdentifier, refIdent, List.range', Work.takeIdk, Work.takeId0, low7]

/-! ### `DECODE` as a whole -/

theorem assemble_id (buf : Vector Byte 15) (fb : FramingByte) :
    (assemble buf fb).id = refIdent (bufRead buf) fb.idl := by
  rw [assemble, (takeData_frame _ _ _ _).1, takeIdentifier_eq _ _ _ fb.idl_bounds]
  rfl

theorem assemble_ext (buf : Vector Byte 15) (fb : FramingByte) :
    (assemble buf fb).ext = (bufRead buf 0).getLsbD 6 := by
  rw [assemble, (takeData_frame _ _ _ _).2.1, takeIdentifier_eq _ _ _ fb.idl_bounds]
  rfl

/-- R71: the data bytes `DECODE` delivers. -/
theorem assemble_data (buf : Vector Byte 15) (fb : FramingByte) :
    (assemble buf fb).data.toList.take fb.dn = (List.range fb.dn).map (refDataByte (bufRead buf) fb) := by
  have hdn := fb.dn_le
  apply List.ext_getElem
  · simp [hdn]
  · intro j h1 h2
    have hj : j < fb.dn := by simpa using h2
    have hc : ((takeIdentifier buf fb.idl (Work.start fb)).takeCry (low7 (bufRead buf (fb.tl - 1)))).carry =
        refCarry (bufRead buf) fb := by
      rw [takeIdentifier_eq _ _ _ fb.idl_bounds]
      rfl
    have hbit : (refCarry (bufRead buf) fb <<< (fb.dn - 1 - j)).getLsbD 7 =
        (decide (fb.dn ≤ 8 + j) && (refCarry (bufRead buf) fb).getLsbD (8 + j - fb.dn)) := by
      rw [BitVec.getLsbD_shiftLeft]
      by_cases h : fb.dn ≤ 8 + j
      · have e1 : ¬ 7 < fb.dn - 1 - j := by omega
        have e2 : 7 - (fb.dn - 1 - j) = 8 + j - fb.dn := by omega
        simp [h, e1, e2]
      · have e1 : 7 < fb.dn - 1 - j := by omega
        simp [h, e1]
    simp only [List.getElem_take, Vector.getElem_toList, List.getElem_map, List.getElem_range, assemble]
    rw [takeData_getElem _ _ _ _ _ (by omega) hdn, if_pos hj, hc, hbit]
    rfl

/-- `DECODE` is the closed form over the bytes it reads (R128). -/
theorem decodeFrame_eq_refDecode (buf : Vector Byte 15) (n : Fin 17) (fb : FramingByte) :
    decodeFrame buf n fb = refDecode n.val (bufRead buf) fb := by
  by_cases h : n.val = fb.tl
  · by_cases h2 : fb.tl < fb.idl + 1
    · simp [decodeFrame, frameCheck, refDecode, h, h2]
    · simp [decodeFrame, frameCheck, refDecode, h, h2, Work.frame, assemble_id, assemble_ext, assemble_data]
  · simp [decodeFrame, frameCheck, refDecode, h]

end Sys2Proof.Machine
end

