-- ==== Sys2Proof/Laws/Enc.lean ====
section
/-! SUPPORT. What the test encoder `ENC` (R78) writes: the length and the fields of its frame, and every bit of its carry. -/

namespace Sys2Proof

/-- The low part of an append is the second operand. -/
theorem extractLsb'_append_low {m n : Nat} (a : BitVec m) (b : BitVec n) : (a ++ b).extractLsb' 0 n = b := by
  apply BitVec.eq_of_getLsbD_eq
  intro i hi
  simp [BitVec.getLsbD_append, hi]

/-- Bit 7 of a payload byte is 0. -/
theorem payloadByte_getLsbD_seven (v : BitVec 7) : (payloadByte v).getLsbD 7 = false := by revert v; decide

/-- The low 7 bits of a payload byte are what it was made from. -/
theorem payloadByte_low (v : BitVec 7) : (payloadByte v).extractLsb' 0 7 = v := extractLsb'_append_low _ _

/-- `idl` identifier bytes, the data bytes, the carry byte. -/
theorem EncArgs.payload_length (a : EncArgs) (h : a.wf = true) : a.payload.length = a.idl + a.data.length + 1 := by
  simp [EncArgs.wf] at h
  simp [EncArgs.payload]
  omega

/-- Every byte of an encoded frame but the last has bit 7 clear. -/
theorem EncArgs.payload_marker (a : EncArgs) : ∀ b ∈ a.payload, b.getLsbD 7 = false := by
  intro b hb
  simp only [EncArgs.payload, List.mem_cons, List.mem_append, List.mem_map, List.not_mem_nil, or_false] at hb
  rcases hb with rfl | (⟨k, _, rfl⟩ | ⟨d, _, rfl⟩) | rfl
  · rw [BitVec.getLsbD_append]
    simp only [Nat.reduceLT, if_false]
    rw [BitVec.getLsbD_append]
    simp
  all_goals exact payloadByte_getLsbD_seven _

/-- The framing byte of an encoded frame declares the frame that precedes it. -/
theorem EncArgs.framing_fields (a : EncArgs) (h : a.wf = true) :
    a.framing.tl = a.payload.length ∧ a.framing.idl = a.idl ∧ a.framing.dn = a.data.length := by
  have hl := a.payload_length h
  simp [EncArgs.wf] at h
  have h1 : a.framing.tl = a.payload.length := by
    simp [EncArgs.framing, FramingByte.tl]
    omega
  have h2 : a.framing.idl = a.idl := by
    simp [EncArgs.framing, FramingByte.idl]
    omega
  refine ⟨h1, h2, ?_⟩
  rw [FramingByte.dn, h1, h2]
  omega

/-- After `n` turns of the encoder's loop, carry bit `b` is bit 7 of data byte `b + dn - 8` if that byte is among the first
`n`, and 0 otherwise. -/
theorem encCarry_loop_bit (data : List Byte) (n b : Nat) (hn : n ≤ data.length) (hb : b < 8) :
    ((List.range n).foldl (encCarryStep data) 0#8).getLsbD b =
      (decide (8 ≤ b + data.length ∧ b + data.length < 8 + n) && (data.getD (b + data.length - 8) 0#8).getLsbD 7) := by
  induction n with
  | zero => simp
  | succ n ih =>
    have ih := ih (by omega)
    rw [List.range_succ, List.foldl_append, List.foldl_cons, List.foldl_nil, encCarryStep]
    split
    · rw [BitVec.getLsbD_or, ih, BitVec.getLsbD_shiftLeft, BitVec.getLsbD_setWidth, BitVec.getLsbD_extractLsb']
      by_cases hbn : b + data.length = 8 + n
      · have e1 : b - (8 + n - data.length) = 0 := by omega
        have e3 : ¬ b < 8 + n - data.length := by omega
        simp [hb, e1, e3, hbn]
      · have e1 : (8 ≤ b + data.length ∧ b + data.length < 8 + n) ↔
            (8 ≤ b + data.length ∧ b + data.length < 8 + (n + 1)) := by omega
        by_cases hlt : b < 8 + n - data.length
        · simp [hlt, e1]
        · have e2 : ¬ b - (8 + n - data.length) < 1 := by omega
          simp only [e1, e2, decide_false, Bool.false_and, Bool.and_false, Bool.or_false]
    · rw [ih]
      have e1 : (8 ≤ b + data.length ∧ b + data.length < 8 + n) ↔
          (8 ≤ b + data.length ∧ b + data.length < 8 + (n + 1)) := by omega
      simp only [e1]

/-- Carry bit `b` of an encoded frame is bit 7 of data byte `b + dn - 8`, or 0 when that index is negative. -/
theorem encCarry_bit (data : List Byte) (b : Nat) (hb : b < 8) :
    (encCarry data).getLsbD b = (decide (8 ≤ b + data.length) && (data.getD (b + data.length - 8) 0#8).getLsbD 7) := by
  rw [encCarry, encCarry_loop_bit data _ b (le_refl _) hb]
  have e : (8 ≤ b + data.length ∧ b + data.length < 8 + data.length) ↔ 8 ≤ b + data.length := by omega
  simp only [e]

end Sys2Proof
end

