-- ==== Sys2Proof/Laws/State.lean ====
section
/-! SUPPORT. One lemma per field per update of the state, each true by unfolding the update once. -/

namespace Sys2Proof.Machine

variable (s : State)

/-! ### `clearPulses` -/

@[simp] theorem State.clearPulses_cfg : (State.clearPulses s).cfg = s.cfg := rfl
@[simp] theorem State.clearPulses_buf : (State.clearPulses s).buf = s.buf := rfl
@[simp] theorem State.clearPulses_cnt : (State.clearPulses s).cnt = s.cnt := rfl
@[simp] theorem State.clearPulses_halt : (State.clearPulses s).halt = s.halt := rfl
@[simp] theorem State.clearPulses_hkind : (State.clearPulses s).hkind = s.hkind := rfl
@[simp] theorem State.clearPulses_ovf : (State.clearPulses s).ovf = s.ovf := rfl
@[simp] theorem State.clearPulses_cache : (State.clearPulses s).cache = s.cache := rfl
@[simp] theorem State.clearPulses_now : (State.clearPulses s).now = s.now := rfl
@[simp] theorem State.clearPulses_pins : (State.clearPulses s).pins = s.pins := rfl
@[simp] theorem State.clearPulses_out : (State.clearPulses s).out = none := rfl
@[simp] theorem State.clearPulses_err : (State.clearPulses s).err = none := rfl
@[simp] theorem State.clearPulses_query : (State.clearPulses s).query = s.query := rfl
@[simp] theorem State.clearPulses_work : (State.clearPulses s).work = s.work := rfl
@[simp] theorem State.clearPulses_decoded : (State.clearPulses s).decoded = s.decoded := rfl
@[simp] theorem State.clearPulses_mask : (State.clearPulses s).mask = s.mask := rfl

/-! ### `setOvf` -/

@[simp] theorem State.setOvf_cfg : (State.setOvf s).cfg = s.cfg := rfl
@[simp] theorem State.setOvf_buf : (State.setOvf s).buf = s.buf := rfl
@[simp] theorem State.setOvf_cnt : (State.setOvf s).cnt = s.cnt := rfl
@[simp] theorem State.setOvf_halt : (State.setOvf s).halt = s.halt := rfl
@[simp] theorem State.setOvf_hkind : (State.setOvf s).hkind = s.hkind := rfl
@[simp] theorem State.setOvf_ovf : (State.setOvf s).ovf = true := rfl
@[simp] theorem State.setOvf_cache : (State.setOvf s).cache = s.cache := rfl
@[simp] theorem State.setOvf_now : (State.setOvf s).now = s.now := rfl
@[simp] theorem State.setOvf_pins : (State.setOvf s).pins = s.pins := rfl
@[simp] theorem State.setOvf_out : (State.setOvf s).out = s.out := rfl
@[simp] theorem State.setOvf_err : (State.setOvf s).err = s.err := rfl
@[simp] theorem State.setOvf_query : (State.setOvf s).query = s.query := rfl
@[simp] theorem State.setOvf_work : (State.setOvf s).work = s.work := rfl
@[simp] theorem State.setOvf_decoded : (State.setOvf s).decoded = s.decoded := rfl
@[simp] theorem State.setOvf_mask : (State.setOvf s).mask = s.mask := rfl

/-! ### `store` -/

@[simp] theorem State.store_cfg (id : Ident) (fields : List Byte) (m : Mask) : (State.store id fields m s).cfg = s.cfg := rfl
@[simp] theorem State.store_buf (id : Ident) (fields : List Byte) (m : Mask) : (State.store id fields m s).buf = s.buf := rfl
@[simp] theorem State.store_cnt (id : Ident) (fields : List Byte) (m : Mask) : (State.store id fields m s).cnt = s.cnt := rfl
@[simp] theorem State.store_halt (id : Ident) (fields : List Byte) (m : Mask) : (State.store id fields m s).halt = s.halt := rfl
@[simp] theorem State.store_hkind (id : Ident) (fields : List Byte) (m : Mask) : (State.store id fields m s).hkind = s.hkind := rfl
@[simp] theorem State.store_ovf (id : Ident) (fields : List Byte) (m : Mask) : (State.store id fields m s).ovf = s.ovf := rfl
@[simp] theorem State.store_cache (id : Ident) (fields : List Byte) (m : Mask) : (State.store id fields m s).cache = s.cache.write id { lastData := fields, diffMask := m, lastSeen := s.now } := rfl
@[simp] theorem State.store_now (id : Ident) (fields : List Byte) (m : Mask) : (State.store id fields m s).now = s.now := rfl
@[simp] theorem State.store_pins (id : Ident) (fields : List Byte) (m : Mask) : (State.store id fields m s).pins = s.pins := rfl
@[simp] theorem State.store_out (id : Ident) (fields : List Byte) (m : Mask) : (State.store id fields m s).out = s.out := rfl
@[simp] theorem State.store_err (id : Ident) (fields : List Byte) (m : Mask) : (State.store id fields m s).err = s.err := rfl
@[simp] theorem State.store_query (id : Ident) (fields : List Byte) (m : Mask) : (State.store id fields m s).query = s.query := rfl
@[simp] theorem State.store_work (id : Ident) (fields : List Byte) (m : Mask) : (State.store id fields m s).work = s.work := rfl
@[simp] theorem State.store_decoded (id : Ident) (fields : List Byte) (m : Mask) : (State.store id fields m s).decoded = s.decoded := rfl
@[simp] theorem State.store_mask (id : Ident) (fields : List Byte) (m : Mask) : (State.store id fields m s).mask = s.mask := rfl

/-! ### `accumulate` -/

@[simp] theorem State.accumulate_cfg (b : Byte) : (State.accumulate b s).cfg = s.cfg := rfl
@[simp] theorem State.accumulate_buf (b : Byte) : (State.accumulate b s).buf = if s.cnt.val < 15 then s.buf.setIfInBounds s.cnt.val b else s.buf := rfl
@[simp] theorem State.accumulate_cnt (b : Byte) : (State.accumulate b s).cnt = cntNext s.cnt := rfl
@[simp] theorem State.accumulate_halt (b : Byte) : (State.accumulate b s).halt = s.halt := rfl
@[simp] theorem State.accumulate_hkind (b : Byte) : (State.accumulate b s).hkind = s.hkind := rfl
@[simp] theorem State.accumulate_ovf (b : Byte) : (State.accumulate b s).ovf = s.ovf := rfl
@[simp] theorem State.accumulate_cache (b : Byte) : (State.accumulate b s).cache = s.cache := rfl
@[simp] theorem State.accumulate_now (b : Byte) : (State.accumulate b s).now = s.now := rfl
@[simp] theorem State.accumulate_pins (b : Byte) : (State.accumulate b s).pins = s.pins := rfl
@[simp] theorem State.accumulate_out (b : Byte) : (State.accumulate b s).out = s.out := rfl
@[simp] theorem State.accumulate_err (b : Byte) : (State.accumulate b s).err = s.err := rfl
@[simp] theorem State.accumulate_query (b : Byte) : (State.accumulate b s).query = s.query := rfl
@[simp] theorem State.accumulate_work (b : Byte) : (State.accumulate b s).work = s.work := rfl
@[simp] theorem State.accumulate_decoded (b : Byte) : (State.accumulate b s).decoded = s.decoded := rfl
@[simp] theorem State.accumulate_mask (b : Byte) : (State.accumulate b s).mask = s.mask := rfl

/-! ### `drop` -/

@[simp] theorem State.drop_cfg (kind : DropKind) : (State.drop kind s).cfg = s.cfg := rfl
@[simp] theorem State.drop_buf (kind : DropKind) : (State.drop kind s).buf = s.buf := rfl
@[simp] theorem State.drop_cnt (kind : DropKind) : (State.drop kind s).cnt = 0 := rfl
@[simp] theorem State.drop_halt (kind : DropKind) : (State.drop kind s).halt = s.halt := rfl
@[simp] theorem State.drop_hkind (kind : DropKind) : (State.drop kind s).hkind = s.hkind := rfl
@[simp] theorem State.drop_ovf (kind : DropKind) : (State.drop kind s).ovf = s.ovf := rfl
@[simp] theorem State.drop_cache (kind : DropKind) : (State.drop kind s).cache = s.cache := rfl
@[simp] theorem State.drop_now (kind : DropKind) : (State.drop kind s).now = s.now := rfl
@[simp] theorem State.drop_pins (kind : DropKind) : (State.drop kind s).pins = s.pins := rfl
@[simp] theorem State.drop_out (kind : DropKind) : (State.drop kind s).out = none := rfl
@[simp] theorem State.drop_err (kind : DropKind) : (State.drop kind s).err = some kind := rfl
@[simp] theorem State.drop_query (kind : DropKind) : (State.drop kind s).query = s.query := rfl
@[simp] theorem State.drop_work (kind : DropKind) : (State.drop kind s).work = s.work := rfl
@[simp] theorem State.drop_decoded (kind : DropKind) : (State.drop kind s).decoded = s.decoded := rfl
@[simp] theorem State.drop_mask (kind : DropKind) : (State.drop kind s).mask = s.mask := rfl

/-! ### `haltWith` -/

@[simp] theorem State.haltWith_cfg (kind : FatalKind) : (State.haltWith kind s).cfg = s.cfg := rfl
@[simp] theorem State.haltWith_buf (kind : FatalKind) : (State.haltWith kind s).buf = s.buf := rfl
@[simp] theorem State.haltWith_cnt (kind : FatalKind) : (State.haltWith kind s).cnt = s.cnt := rfl
@[simp] theorem State.haltWith_halt (kind : FatalKind) : (State.haltWith kind s).halt = true := rfl
@[simp] theorem State.haltWith_hkind (kind : FatalKind) : (State.haltWith kind s).hkind = kind := rfl
@[simp] theorem State.haltWith_ovf (kind : FatalKind) : (State.haltWith kind s).ovf = s.ovf := rfl
@[simp] theorem State.haltWith_cache (kind : FatalKind) : (State.haltWith kind s).cache = s.cache := rfl
@[simp] theorem State.haltWith_now (kind : FatalKind) : (State.haltWith kind s).now = s.now := rfl
@[simp] theorem State.haltWith_pins (kind : FatalKind) : (State.haltWith kind s).pins = s.pins := rfl
@[simp] theorem State.haltWith_out (kind : FatalKind) : (State.haltWith kind s).out = s.out := rfl
@[simp] theorem State.haltWith_err (kind : FatalKind) : (State.haltWith kind s).err = s.err := rfl
@[simp] theorem State.haltWith_query (kind : FatalKind) : (State.haltWith kind s).query = s.query := rfl
@[simp] theorem State.haltWith_work (kind : FatalKind) : (State.haltWith kind s).work = s.work := rfl
@[simp] theorem State.haltWith_decoded (kind : FatalKind) : (State.haltWith kind s).decoded = s.decoded := rfl
@[simp] theorem State.haltWith_mask (kind : FatalKind) : (State.haltWith kind s).mask = s.mask := rfl

/-! ### `resetCore` -/

@[simp] theorem State.resetCore_cfg : (State.resetCore s).cfg = s.cfg := rfl
@[simp] theorem State.resetCore_buf : (State.resetCore s).buf = s.buf := rfl
@[simp] theorem State.resetCore_cnt : (State.resetCore s).cnt = 0 := rfl
@[simp] theorem State.resetCore_halt : (State.resetCore s).halt = false := rfl
@[simp] theorem State.resetCore_hkind : (State.resetCore s).hkind = .noFailure := rfl
@[simp] theorem State.resetCore_ovf : (State.resetCore s).ovf = false := rfl
@[simp] theorem State.resetCore_cache : (State.resetCore s).cache = [] := rfl
@[simp] theorem State.resetCore_now : (State.resetCore s).now = s.now := rfl
@[simp] theorem State.resetCore_pins : (State.resetCore s).pins = s.pins := rfl
@[simp] theorem State.resetCore_out : (State.resetCore s).out = none := rfl
@[simp] theorem State.resetCore_err : (State.resetCore s).err = none := rfl
@[simp] theorem State.resetCore_query : (State.resetCore s).query = s.query := rfl
@[simp] theorem State.resetCore_work : (State.resetCore s).work = s.work := rfl
@[simp] theorem State.resetCore_decoded : (State.resetCore s).decoded = s.decoded := rfl
@[simp] theorem State.resetCore_mask : (State.resetCore s).mask = s.mask := rfl

/-! ### `runDecode` -/

@[simp] theorem State.runDecode_cfg (fb : FramingByte) : (State.runDecode fb s).cfg = s.cfg := rfl
@[simp] theorem State.runDecode_buf (fb : FramingByte) : (State.runDecode fb s).buf = s.buf := rfl
@[simp] theorem State.runDecode_cnt (fb : FramingByte) : (State.runDecode fb s).cnt = s.cnt := rfl
@[simp] theorem State.runDecode_halt (fb : FramingByte) : (State.runDecode fb s).halt = s.halt := rfl
@[simp] theorem State.runDecode_hkind (fb : FramingByte) : (State.runDecode fb s).hkind = s.hkind := rfl
@[simp] theorem State.runDecode_ovf (fb : FramingByte) : (State.runDecode fb s).ovf = s.ovf := rfl
@[simp] theorem State.runDecode_cache (fb : FramingByte) : (State.runDecode fb s).cache = s.cache := rfl
@[simp] theorem State.runDecode_now (fb : FramingByte) : (State.runDecode fb s).now = s.now := rfl
@[simp] theorem State.runDecode_pins (fb : FramingByte) : (State.runDecode fb s).pins = s.pins := rfl
@[simp] theorem State.runDecode_out (fb : FramingByte) : (State.runDecode fb s).out = s.out := rfl
@[simp] theorem State.runDecode_err (fb : FramingByte) : (State.runDecode fb s).err = s.err := rfl
@[simp] theorem State.runDecode_query (fb : FramingByte) : (State.runDecode fb s).query = s.query := rfl
@[simp] theorem State.runDecode_work (fb : FramingByte) : (State.runDecode fb s).work = decodeWork s.buf s.cnt fb := rfl
@[simp] theorem State.runDecode_decoded (fb : FramingByte) : (State.runDecode fb s).decoded = some (decodeFrame s.buf s.cnt fb) := rfl
@[simp] theorem State.runDecode_mask (fb : FramingByte) : (State.runDecode fb s).mask = s.mask := rfl

/-! ### `endFrame` -/

@[simp] theorem State.endFrame_cfg : (State.endFrame s).cfg = s.cfg := rfl
@[simp] theorem State.endFrame_buf : (State.endFrame s).buf = s.buf := rfl
@[simp] theorem State.endFrame_cnt : (State.endFrame s).cnt = s.cnt := rfl
@[simp] theorem State.endFrame_halt : (State.endFrame s).halt = s.halt := rfl
@[simp] theorem State.endFrame_hkind : (State.endFrame s).hkind = s.hkind := rfl
@[simp] theorem State.endFrame_ovf : (State.endFrame s).ovf = s.ovf := rfl
@[simp] theorem State.endFrame_cache : (State.endFrame s).cache = s.cache := rfl
@[simp] theorem State.endFrame_now : (State.endFrame s).now = s.now := rfl
@[simp] theorem State.endFrame_pins : (State.endFrame s).pins = s.pins := rfl
@[simp] theorem State.endFrame_out : (State.endFrame s).out = s.out := rfl
@[simp] theorem State.endFrame_err : (State.endFrame s).err = s.err := rfl
@[simp] theorem State.endFrame_query : (State.endFrame s).query = s.query := rfl
@[simp] theorem State.endFrame_work : (State.endFrame s).work = Work.blank := rfl
@[simp] theorem State.endFrame_decoded : (State.endFrame s).decoded = none := rfl
@[simp] theorem State.endFrame_mask : (State.endFrame s).mask = none := rfl

/-! ### `sampled` -/

@[simp] theorem State.sampled_cfg : (State.sampled s).cfg = s.cfg := rfl
@[simp] theorem State.sampled_buf : (State.sampled s).buf = s.buf := rfl
@[simp] theorem State.sampled_cnt : (State.sampled s).cnt = s.cnt := rfl
@[simp] theorem State.sampled_halt : (State.sampled s).halt = s.halt := rfl
@[simp] theorem State.sampled_hkind : (State.sampled s).hkind = s.hkind := rfl
@[simp] theorem State.sampled_ovf : (State.sampled s).ovf = s.ovf := rfl
@[simp] theorem State.sampled_cache : (State.sampled s).cache = s.cache := rfl
@[simp] theorem State.sampled_now : (State.sampled s).now = s.nextSample.now % 2 ^ s.cfg.tw := rfl
@[simp] theorem State.sampled_pins : (State.sampled s).pins = s.pins.tail := rfl
@[simp] theorem State.sampled_out : (State.sampled s).out = s.out := rfl
@[simp] theorem State.sampled_err : (State.sampled s).err = s.err := rfl
@[simp] theorem State.sampled_query : (State.sampled s).query = none := rfl
@[simp] theorem State.sampled_work : (State.sampled s).work = s.work := rfl
@[simp] theorem State.sampled_decoded : (State.sampled s).decoded = s.decoded := rfl
@[simp] theorem State.sampled_mask : (State.sampled s).mask = s.mask := rfl

/-! ### `unbounded` -/

@[simp] theorem State.unbounded_cfg : (State.unbounded s).cfg = { s.cfg with cacheEntries := none } := rfl
@[simp] theorem State.unbounded_buf : (State.unbounded s).buf = s.buf := rfl
@[simp] theorem State.unbounded_cnt : (State.unbounded s).cnt = s.cnt := rfl
@[simp] theorem State.unbounded_halt : (State.unbounded s).halt = s.halt := rfl
@[simp] theorem State.unbounded_hkind : (State.unbounded s).hkind = s.hkind := rfl
@[simp] theorem State.unbounded_ovf : (State.unbounded s).ovf = s.ovf := rfl
@[simp] theorem State.unbounded_cache : (State.unbounded s).cache = s.cache := rfl
@[simp] theorem State.unbounded_now : (State.unbounded s).now = s.now := rfl
@[simp] theorem State.unbounded_pins : (State.unbounded s).pins = s.pins := rfl
@[simp] theorem State.unbounded_out : (State.unbounded s).out = s.out := rfl
@[simp] theorem State.unbounded_err : (State.unbounded s).err = s.err := rfl
@[simp] theorem State.unbounded_query : (State.unbounded s).query = s.query := rfl
@[simp] theorem State.unbounded_work : (State.unbounded s).work = s.work := rfl
@[simp] theorem State.unbounded_decoded : (State.unbounded s).decoded = s.decoded := rfl
@[simp] theorem State.unbounded_mask : (State.unbounded s).mask = s.mask := rfl

end Sys2Proof.Machine
end

