-- ==== Sys2Proof/Laws/Step.lean ====
section
/-! SUPPORT. What one operation and one step can do, each said once: later proofs cite these lemmas instead of unfolding the
step. -/

namespace Sys2Proof.Machine

/-! ### The parts of `FRM` -/

/-- The mask of R153 computed by the model is the one the rule writes down element by element. -/
theorem diffMask_eq_refMask {stored fields : List Byte} (h : stored.length = fields.length) :
    diffMask stored fields = refMask stored fields := by
  rw [diffMask, if_pos h, refMask]
  apply List.ext_getElem
  · simp [h]
  · intro j h1 h2
    have hf : j < fields.length := by simpa using h2
    have hs : j < stored.length := by omega
    simp [hf, hs]

/-- Everything `OBSERVE` can do (R150), in one equation. -/
theorem State.observeFields_eq (id : Ident) (fields : List Byte) (s : State) :
    s.observeFields id fields =
      { s with
        cache := (refObserve s.cfg s.cache id fields s.now).2.1
        ovf := s.ovf || (refObserve s.cfg s.cache id fields s.now).2.2
        mask := (refObserve s.cfg s.cache id fields s.now).1 } := by
  have hm : ∀ e : Entry, (if e.lastData.length = fields.length then refMask e.lastData fields
      else allTrue fields.length) = diffMask e.lastData fields := by
    intro e
    by_cases h : e.lastData.length = fields.length
    · rw [if_pos h, diffMask_eq_refMask h]
    · rw [if_neg h, diffMask, if_neg h]
  simp only [State.observeFields, refObserve]
  cases s.cache.read id with
  | none => by_cases h : hasRoom s.cfg s.cache = true <;> simp [h, State.store, State.setOvf]
  | some e =>
    by_cases h : e.lastData = fields
    · simp [h]
    · simp [h, hm, State.store]

/-- `FRM` on a frame that is rejected (R101, R209). -/
theorem State.closeFrame_malformed {s : State} {fb : FramingByte} {kind : DropKind}
    (h : decodeFrame s.buf s.cnt fb = .malformed kind) :
    s.closeFrame fb =
      { s with cnt := 0, err := some kind, out := none, work := Work.blank, decoded := none, mask := none } := by
  simp [State.closeFrame, State.runDecode, h, State.dropIfMalformed, State.drop, State.runObserve, State.runEmit,
    State.endFrame]

/-- `FRM` on a frame that is accepted (R101): observed, and emitted when a mask is returned. -/
theorem State.closeFrame_ok {s : State} {fb : FramingByte} {f : DecodedFrame}
    (h : decodeFrame s.buf s.cnt fb = .ok f) :
    s.closeFrame fb =
      { s with
        cnt := 0
        cache := (refObserve s.cfg s.cache f.id f.data s.now).2.1
        ovf := s.ovf || (refObserve s.cfg s.cache f.id f.data s.now).2.2
        out := ((refObserve s.cfg s.cache f.id f.data s.now).1.map (fun m => outRecord f m s.now)).or s.out
        work := Work.blank, decoded := none, mask := none } := by
  simp only [State.closeFrame, State.runDecode, h, State.dropIfMalformed, State.runObserve, State.observeFields_eq]
  cases hm : (refObserve s.cfg s.cache f.id f.data s.now).1 <;> simp [State.runEmit, State.endFrame]

/-- The three things an observation can do: nothing, overflow, or store and report (R150 to R156). -/
theorem refObserve_cases (p : Config.Params) (c : Cache) (id : Ident) (fields : List Byte) (now : Nat) :
   (refObserve p c id fields now = (none, c, false) ∧ c.read id ≠ none) ∨
   (refObserve p c id fields now = (some (allTrue fields.length), c, true) ∧ c.read id = none ∧ hasRoom p c = false) ∨
   (∃ m, refObserve p c id fields now = (some m, c.write id { lastData := fields, diffMask := m, lastSeen := now }, false) ∧
      m.length = fields.length ∧ (c.read id ≠ none ∨ hasRoom p c = true)) := by
  simp only [refObserve]
  cases h : c.read id with
  | none => cases hr : hasRoom p c <;> simp [allTrue]
  | some e =>
    by_cases he : e.lastData = fields
    · simp [he]
    · by_cases hl : e.lastData.length = fields.length <;> simp [he, hl, refMask, allTrue]

/-- The four things `FRM` can do on a running core: drop, suppress, overflow with a record, store with a record (R101). -/
theorem State.closeFrame_cases (s : State) (fb : FramingByte) :
   (∃ k, decodeFrame s.buf s.cnt fb = .malformed k ∧ s.closeFrame fb =
      { s with cnt := 0, err := some k, out := none, work := Work.blank, decoded := none, mask := none }) ∨
   (∃ f, decodeFrame s.buf s.cnt fb = .ok f ∧
     ((s.closeFrame fb = { s with cnt := 0, work := Work.blank, decoded := none, mask := none } ∧ s.cache.read f.id ≠ none) ∨
     (s.closeFrame fb = { s with cnt := 0, ovf := true, out := some (outRecord f (allTrue f.data.length) s.now), work := Work.blank, decoded := none, mask := none } ∧ s.cache.read f.id = none ∧ hasRoom s.cfg s.cache = false) ∨
     (∃ m, s.closeFrame fb = { s with cnt := 0, cache := s.cache.write f.id { lastData := f.data, diffMask := m, lastSeen := s.now }, out := some (outRecord f m s.now), work := Work.blank, decoded := none, mask := none } ∧ m.length = f.data.length ∧ (s.cache.read f.id ≠ none ∨ hasRoom s.cfg s.cache = true)))) := by
  cases h : decodeFrame s.buf s.cnt fb with
  | malformed k => exact .inl ⟨k, rfl, State.closeFrame_malformed h⟩
  | ok f =>
    refine .inr ⟨f, rfl, ?_⟩
    rw [State.closeFrame_ok h]
    rcases refObserve_cases s.cfg s.cache f.id f.data s.now with ⟨h, h1⟩ | ⟨h, h1, h2⟩ | ⟨m, h, h1, h2⟩ <;> rw [h]
    · exact .inl ⟨by simp, h1⟩
    · exact .inr (.inl ⟨by simp, h1, h2⟩)
    · exact .inr (.inr ⟨m, by simp, h1, h2⟩)

/-- The close that follows a byte, in one equation (R181, R183). -/
theorem State.closeIf_eq (c : Bool) (s : State) :
    s.closeIf c =
      { s with
        halt := s.halt || c
        hkind := if c && !s.halt then (if 0 < s.cnt.val then .decodeIncomplete else .transportClosed) else s.hkind } := by
  obtain ⟨cfg, buf, cnt, halt, hkind, ovf, cache, now, pins, out, err, query, work, decoded, mask⟩ := s
  cases c <;> cases halt <;> rfl

theorem State.closeTransport_eq (s : State) : s.closeTransport = s.closeIf true := rfl

/-! ### One operation -/

/-- Every operation completes (R12). -/
theorem exec_next (i : Instr) (s : State) : ∃ t, exec i s = .next t := by
  cases i <;> exact ⟨_, rfl⟩

/-- The query port in one step (R60, R161). -/
theorem serveQuery_eq (w : QueryWord) (s : State) :
    serveQuery w s =
      .next { s with query := if w.getLsbD 34 then some (s.answer (w.extractLsb' 0 34)) else s.query } := by
  cases h : w.getLsbD 34 <;> rw [serveQuery, decodeQuery, h] <;> rfl

/-- The state on which a step's ingest operation runs: pins sampled, query answered (R29, R50). -/
def State.ready (s : State) : State :=
  { s.sampled with
    query := if s.nextSample.queryWord.getLsbD 34 then some (s.sampled.answer (s.nextSample.queryWord.extractLsb' 0 34))
      else none }

@[simp] theorem State.ready_cfg (s : State) : s.ready.cfg = s.cfg := rfl
@[simp] theorem State.ready_buf (s : State) : s.ready.buf = s.buf := rfl
@[simp] theorem State.ready_cnt (s : State) : s.ready.cnt = s.cnt := rfl
@[simp] theorem State.ready_halt (s : State) : s.ready.halt = s.halt := rfl
@[simp] theorem State.ready_hkind (s : State) : s.ready.hkind = s.hkind := rfl
@[simp] theorem State.ready_ovf (s : State) : s.ready.ovf = s.ovf := rfl
@[simp] theorem State.ready_cache (s : State) : s.ready.cache = s.cache := rfl
@[simp] theorem State.ready_out (s : State) : s.ready.out = s.out := rfl
@[simp] theorem State.ready_err (s : State) : s.ready.err = s.err := rfl
@[simp] theorem State.ready_work (s : State) : s.ready.work = s.work := rfl
@[simp] theorem State.ready_decoded (s : State) : s.ready.decoded = s.decoded := rfl
@[simp] theorem State.ready_mask (s : State) : s.ready.mask = s.mask := rfl
@[simp] theorem State.ready_now (s : State) : s.ready.now = s.nextSample.now % 2 ^ s.cfg.tw := rfl
@[simp] theorem State.ready_pins (s : State) : s.ready.pins = s.pins.tail := rfl

/-- A step is the presented operation on the ready state (R9). -/
theorem step_eq (s : State) : step s = exec s.presented s.ready := by
  rw [step, serveQuery_eq]
  rfl

/-- The pins select one of the five operations of R60, or a byte by itself one of the two of R61. -/
theorem State.presented_cases (s : State) :
    s.presented = .reset ∨ s.presented = .nop ∨ s.presented = .close ∨ (∃ c v, s.presented = .acc c v) ∨
      (∃ c fb, s.presented = .frm c fb) ∨ (∃ v, s.presented = .payload v) ∨ (∃ fb, s.presented = .framing fb) := by
  simp only [State.presented]
  cases s.nextSample.ingest with
  | pins w =>
    simp only [decodeIngest, decodeStep]
    split
    · simp
    · split
      · split <;> simp
      · split <;> simp
  | byte b =>
    simp only [decodeIngest, decodeWire]
    split <;> simp

/-- Everything a step can do. The ingest operation runs on the ready state: `RESET`; or, halted, nothing but the end of the
pulses; or, running, one of the four events, and a close after it if the step word says so. -/
theorem step_cases {s t : State} (h : step s = .next t) :
    (s.presented = .reset ∧ t = s.ready.resetCore) ∨
    (s.presented ≠ .reset ∧ s.halt = true ∧ t = s.ready.clearPulses) ∨
    (s.halt = false ∧ ∃ c : Bool,
      (s.presented = .nop ∧ c = false ∧ t = s.ready.clearPulses) ∨
      (s.presented = .close ∧ c = true ∧ t = s.ready.clearPulses.closeTransport) ∨
      (∃ v, (s.presented = .acc c v ∨ (s.presented = .payload v ∧ c = false)) ∧
        t = (s.ready.clearPulses.accumulate (payloadByte v)).closeIf c) ∨
      (∃ fb, (s.presented = .frm c fb ∨ (s.presented = .framing fb ∧ c = false)) ∧
        t = (s.ready.clearPulses.closeFrame fb).closeIf c)) := by
  rw [step_eq] at h
  have close_halted : ∀ c, s.halt = true → (s.ready.clearPulses).closeIf c = s.ready.clearPulses := by
    intro c hs
    cases c <;> simp [State.closeIf, State.closeTransport, hs]
  rcases s.presented_cases with hp | hp | hp | ⟨c, v, hp⟩ | ⟨c, fb, hp⟩ | ⟨v, hp⟩ | ⟨fb, hp⟩ <;> rw [hp] at h ⊢
  · cases h
    exact .inl ⟨rfl, rfl⟩
  all_goals
    cases hs : s.halt
    · cases h
      refine .inr (.inr ⟨rfl, ?_⟩)
      simp [State.event, hs, State.closeIf]
    · cases h
      refine .inr (.inl ⟨by simp, rfl, ?_⟩)
      simp [State.event, hs, close_halted]

/-! ### Runs -/

@[simp] theorem run_zero (s : State) : run 0 s = .next s := rfl

/-- A run goes through its first step. -/
theorem run_succ {k : Nat} {s u : State} (h : step s = .next u) : run (k + 1) s = run k u := by
  have hc : Sys2Proof.core.step s = Host.Outcome.next u := h
  simp only [run, Host.Core.run]
  rw [hc]

/-- Every run completes (R12). -/
theorem step_next (s : State) : ∃ t, step s = .next t := by
  rw [step_eq]
  exact exec_next _ _

theorem run_next (k : Nat) (s : State) : ∃ t, run k s = .next t := by
  induction k generalizing s with
  | zero => exact ⟨s, rfl⟩
  | succ k ih =>
    obtain ⟨u, hu⟩ := step_next s
    rw [run_succ hu]
    exact ih u

/-- A run of `j + k` steps is a run of `j` steps and then one of `k`. -/
theorem run_add {j k : Nat} {s u : State} (h : run j s = .next u) : run (j + k) s = run k u := by
  induction j generalizing s with
  | zero =>
    cases h
    rw [Nat.zero_add]
  | succ j ih =>
    obtain ⟨v, hv⟩ := step_next s
    rw [run_succ hv] at h
    rw [Nat.add_right_comm, run_succ hv, ih h]

end Sys2Proof.Machine
end

