-- ==== Sys2Proof/Laws/Feed.lean ====
section
/-! SUPPORT. Feeding bytes: what a run over payload bytes does, from which the statements about whole frames follow. -/

namespace Sys2Proof.Machine

/-! ### The buffer as memory -/

/-- Reading the register just written. -/
theorem bufRead_set_same (buf : Vector Byte 15) (i : Nat) (b : Byte) (h : i < 15) :
    bufRead (buf.setIfInBounds i b) i = b := by
  simp [bufRead, h]

/-- A write leaves every other register alone. -/
theorem bufRead_set_other (buf : Vector Byte 15) {i j : Nat} (b : Byte) (h : j ≠ i) :
    bufRead (buf.setIfInBounds i b) j = bufRead buf j := by
  simp only [bufRead, List.getD_eq_getElem?_getD, Vector.getElem?_toList]
  rw [Vector.getElem?_setIfInBounds_ne (Ne.symm h)]

/-! ### One byte -/

/-- The byte pins select the class of the byte (R60, R61). -/
theorem decodeIngest_byteSample (now : Nat) (b : Byte) :
    decodeIngest (byteSample now b).ingest =
      if b.getLsbD 7 then .frm false (framingFields b) else .acc false (b.extractLsb' 0 7) := by
  simp only [byteSample, decodeIngest]
  revert b
  decide

theorem payloadByte_low7 (b : Byte) (h : b.getLsbD 7 = false) : payloadByte (b.extractLsb' 0 7) = b := by
  revert b
  decide

theorem framingFields_toByte (fb : FramingByte) : framingFields fb.toByte = fb := by
  obtain ⟨k, ll, nn⟩ := fb
  revert k ll nn
  decide

theorem toByte_marker (fb : FramingByte) : fb.toByte.getLsbD 7 = true := by
  obtain ⟨k, ll, nn⟩ := fb
  revert k ll nn
  decide

/-- The step of a payload byte on a running core. -/
theorem step_payload {s : State} {now : Nat} {b : Byte} {rest : List PinSample} (hh : s.halt = false)
    (hb : b.getLsbD 7 = false) (hp : s.pins = byteSample now b :: rest) :
    step s = .next { s with
      buf := if s.cnt.val < 15 then s.buf.setIfInBounds s.cnt.val b else s.buf
      cnt := cntNext s.cnt, pins := rest, now := now % 2 ^ s.cfg.tw, out := none, err := none, query := none } := by
  have hn : s.nextSample = byteSample now b := by simp [State.nextSample, hp]
  rw [step_eq, State.presented, hn, decodeIngest_byteSample, hb]
  simp [exec, execAcc, State.event, hh, State.closeIf, payloadByte_low7 b hb, State.accumulate, Config.bufDepth,
    State.clearPulses, hp]
  simp [State.ready, State.sampled, hn, byteSample]

/-- The step of a framing byte on a running core. -/
theorem step_framing {s : State} {now : Nat} {fb : FramingByte} {rest : List PinSample} (hh : s.halt = false)
    (hp : s.pins = byteSample now fb.toByte :: rest) :
    step s = .next (State.closeFrame fb
      { s with pins := rest, now := now % 2 ^ s.cfg.tw, out := none, err := none, query := none }) := by
  have hn : s.nextSample = byteSample now fb.toByte := by simp [State.nextSample, hp]
  rw [step_eq, State.presented, hn, decodeIngest_byteSample, toByte_marker, framingFields_toByte]
  have hr : s.ready.clearPulses =
      { s with pins := rest, now := now % 2 ^ s.cfg.tw, out := none, err := none, query := none } := by
    simp [State.ready, State.sampled, hn, byteSample, State.clearPulses, hp]
  simp only [if_true, exec, execFrm, State.event, State.ready_halt, hh, hr, State.closeIf]
  rfl

/-! ### A run of payload bytes -/

/-- What a run over payload bytes leaves: the bytes in `BUF` from the old `CNT` on as far as there is room, `CNT` higher by
their number up to 16, and nothing else of R20's state changed (R100, R104). -/
theorem run_payload (bs : List Byte) (s : State) (now : Nat) (rest : List PinSample) (hh : s.halt = false)
    (hb : ∀ b ∈ bs, b.getLsbD 7 = false) (hp : s.pins = bs.map (byteSample now) ++ rest) :
    ∃ u, run bs.length s = .next u ∧ u.pins = rest ∧ u.cfg = s.cfg ∧ u.halt = false ∧ u.hkind = s.hkind ∧
      u.ovf = s.ovf ∧ u.cache = s.cache ∧ u.cnt.val = min (s.cnt.val + bs.length) 16 ∧
      (∀ i, i < s.cnt.val → bufRead u.buf i = bufRead s.buf i) ∧
      (∀ i, i < bs.length → s.cnt.val + i < 15 → bufRead u.buf (s.cnt.val + i) = bs.getD i 0#8) := by
  induction bs generalizing s with
  | nil =>
    refine ⟨s, rfl, by simpa using hp, rfl, hh, rfl, rfl, rfl, ?_, fun _ _ => rfl, fun i hi => absurd hi (by simp)⟩
    have := s.cnt.isLt
    simp
    omega
  | cons b bs ih =>
    have hb7 : b.getLsbD 7 = false := hb b List.mem_cons_self
    have hstep := step_payload hh hb7 hp
    obtain ⟨u, hrun, h1, h2, h3, h4, h5, h6, h7, h8, h9⟩ :=
      ih { s with
          buf := if s.cnt.val < 15 then s.buf.setIfInBounds s.cnt.val b else s.buf
          cnt := cntNext s.cnt, pins := bs.map (byteSample now) ++ rest, now := now % 2 ^ s.cfg.tw
          out := none, err := none, query := none } hh (fun c hc => hb c (List.mem_cons_of_mem _ hc)) rfl
    refine ⟨u, ?_, h1, h2, h3, h4, h5, h6, ?_, ?_, ?_⟩
    · rw [List.length_cons, run_succ hstep]
      exact hrun
    · rw [h7]
      have := s.cnt.isLt
      simp only [cntNext, List.length_cons]
      omega
    · intro i hi
      have hi' : i < (cntNext s.cnt).val := by
        have := s.cnt.isLt
        simp only [cntNext]
        omega
      rw [h8 i hi']
      by_cases hc : s.cnt.val < 15
      · simp only [if_pos hc]
        exact bufRead_set_other _ _ (by omega)
      · simp only [if_neg hc]
    · intro i hi hlt
      have hc : s.cnt.val < 15 := by omega
      have hnext : (cntNext s.cnt).val = s.cnt.val + 1 := by
        simp only [cntNext]
        omega
      cases i with
      | zero =>
        rw [Nat.add_zero, h8 _ (by rw [hnext]; omega)]
        simp only [if_pos hc, List.getD_cons_zero]
        exact bufRead_set_same _ _ _ hc
      | succ i =>
        have := h9 i (by simpa using hi) (by simp only [hnext]; omega)
        simp only [hnext] at this
        rw [List.getD_cons_succ, ← this]
        congr 1
        omega

/-- `DECODE` by the closed form depends only on the bytes it reads (R53, R132). -/
theorem refDecode_congr {n : Nat} {b b' : Nat → Byte} (fb : FramingByte)
    (h : n = fb.tl → ∀ i, i < fb.tl → b i = b' i) : refDecode n b fb = refDecode n b' fb := by
  by_cases hn : n = fb.tl
  · by_cases hs : fb.tl < fb.idl + 1
    · simp [refDecode, hn, hs]
    · have hi := fb.idl_bounds
      have hb := h hn
      have hid : refIdent b fb.idl = refIdent b' fb.idl := by
        have hcases : fb.idl = 2 ∨ fb.idl = 3 ∨ fb.idl = 4 ∨ fb.idl = 5 := by omega
        have h0 := hb 0 (by omega)
        have h1 := hb 1 (by omega)
        rcases hcases with h | h | h | h
        · simp [refIdent, h, h0, h1]
        · simp [refIdent, h, h0, h1, hb 2 (by omega)]
        · simp [refIdent, h, h0, h1, hb 2 (by omega), hb 3 (by omega)]
        · simp [refIdent, h, h0, h1, hb 2 (by omega), hb 3 (by omega), hb 4 (by omega)]
      have hdata : (List.range fb.dn).map (refDataByte b fb) = (List.range fb.dn).map (refDataByte b' fb) := by
        apply List.map_congr_left
        intro j hj
        have hj' : j < fb.dn := by simpa using hj
        simp only [FramingByte.dn] at hj'
        simp only [refDataByte, refCarry, hb (fb.tl - 1) (by omega), hb (fb.idl + j) (by omega)]
      simp [refDecode, hn, hs, hid, hdata, hb 0 (by omega)]
  · simp [refDecode, hn]

end Sys2Proof.Machine
end

