-- ==== Sys2Proof/Laws/PerInstr.lean ====
section
/-! SUPPORT. Lemmas made for each operation: the word the encoder writes has the pattern of the operation's row in the opcode
table (R60, R61, R64 to R67). -/

namespace Sys2Proof.Laws

/-- The word `w` has the pattern `pat` under the mask `mask`. -/
def matchesRow (mask pat : Nat) : RawWord → Prop
  | .step w => w &&& BitVec.ofNat 11 mask = BitVec.ofNat 11 pat
  | .query w => w &&& BitVec.ofNat 35 mask = BitVec.ofNat 35 pat
  | .wire b => b &&& BitVec.ofNat 8 mask = BitVec.ofNat 8 pat
  | .inFrame _ b => b &&& BitVec.ofNat 8 mask = BitVec.ofNat 8 pat

/-- The mask and the match value of the operation's row in the opcode table. -/
def tableRow : Instr → Nat × Nat
  | .reset => (0x400, 0x400)
  | .nop => (0x700, 0x000)
  | .acc _ _ => (0x580, 0x100)
  | .frm _ _ => (0x580, 0x180)
  | .close => (0x700, 0x200)
  | .query _ => (0x400000000, 0x400000000)
  | .payload _ => (0x80, 0x00)
  | .framing _ => (0x80, 0x80)
  | .id0 _ _ => (0x80, 0x00)
  | .idk _ _ => (0x80, 0x00)
  | .datj _ _ => (0x80, 0x00)
  | .cry _ => (0x80, 0x00)
  | .decode _ => (0x580, 0x180)
  | .observe => (0x580, 0x180)
  | .emit => (0x580, 0x180)

/-- Bit 7 of a payload byte is 0. -/
theorem payloadByte_marker (v : BitVec 7) : payloadByte v &&& 0x80#8 = 0x00#8 := by revert v; decide

namespace TablePattern

/-- Every word the encoder writes for `i` has the pattern of its row. -/
def Statement (i : Instr) : Prop := ∀ w, encode i = some w → matchesRow (tableRow i).1 (tableRow i).2 w

theorem reset : Statement .reset := by rintro _ ⟨⟩; rfl

theorem nop : Statement .nop := by rintro _ ⟨⟩; rfl

theorem acc (c : Bool) (v : BitVec 7) : Statement (.acc c v) := by
  rintro _ ⟨⟩
  revert c v
  simp only [matchesRow, tableRow]
  decide

theorem frm (c : Bool) (fb : FramingByte) : Statement (.frm c fb) := by
  rintro _ ⟨⟩
  obtain ⟨k, ll, nnnn⟩ := fb
  revert c k ll nnnn
  simp only [matchesRow, tableRow]
  decide

theorem close : Statement .close := by rintro _ ⟨⟩; rfl

theorem query (q : Ident) : Statement (.query q) := by
  rintro _ ⟨⟩
  simp only [matchesRow, tableRow]
  apply BitVec.eq_of_getLsbD_eq
  intro i hi
  rw [BitVec.getLsbD_and, BitVec.getLsbD_append]
  interval_cases i <;> simp

theorem payload (v : BitVec 7) : Statement (.payload v) := by rintro _ ⟨⟩; exact payloadByte_marker v

theorem framing (fb : FramingByte) : Statement (.framing fb) := by
  rintro _ ⟨⟩
  obtain ⟨k, ll, nnnn⟩ := fb
  revert k ll nnnn
  simp only [matchesRow, tableRow]
  decide

theorem id0 (e : Bool) (v : BitVec 6) : Statement (.id0 e v) := by
  rintro _ ⟨⟩
  revert e v
  simp only [matchesRow, tableRow]
  decide

theorem idk (k : Nat) (v : BitVec 7) : Statement (.idk k v) := by rintro _ ⟨⟩; exact payloadByte_marker v

theorem datj (j : Nat) (d : BitVec 7) : Statement (.datj j d) := by rintro _ ⟨⟩; exact payloadByte_marker d

theorem cry (c : BitVec 7) : Statement (.cry c) := by rintro _ ⟨⟩; exact payloadByte_marker c

theorem decode (fb : FramingByte) : Statement (.decode fb) := by rintro _ ⟨⟩

theorem observe : Statement .observe := by rintro _ ⟨⟩

theorem emit : Statement .emit := by rintro _ ⟨⟩

end TablePattern

end Sys2Proof.Laws
end

