-- ==== Sys2Proof/Tests/Slice0.lean ====
section
/-! SUPPORT. The model's own tests: the well-formedness checks refuse ill-formed terms, words written out from the spec decode
to what they stand for, one-step tests whose results are vectors of 95_test_vectors.md, and a witness for the hypotheses of
every statement. -/

namespace Sys2Proof.Tests

open Sys2Proof Sys2Proof.Machine

/-! ## Helpers -/

/-- A running core that has collected the bytes `bs` of a frame, at time `now`. -/
def collected (bs : List Byte) (now : Nat) : State :=
  { State.reset with buf := Vector.ofFn fun i => bs.getD i.val 0#8, cnt := Fin.ofNat 17 bs.length, now := now }

/-- The same core with one cache entry. -/
def holding (id : Ident) (data : List Byte) (m : Mask) (seen : Nat) (s : State) : State :=
  { s with cache := [(id, { lastData := data, diffMask := m, lastSeen := seen })] }

/-- A core between `DECODE` and `OBSERVE`. -/
def decodedTo (id : Ident) (data : List Byte) (s : State) : State :=
  { s with decoded := some (.ok { id := id, ext := false, data := data }) }

/-- A view of the next state, if there is one. -/
def view {α : Type} (o : Host.Outcome State Fault Refusal) (f : State → α) : Option α :=
  match o with
  | .next t => some (f t)
  | .fault _ => none
  | .refused _ => none

/-- The framing byte `b` as its fields. -/
abbrev fb (b : Byte) : FramingByte := framingFields b

/-- A sample of the pins from a step word, a query word and a time. -/
def sample (w : StepWord) (q : QueryWord) (now : Nat) : PinSample := { ingest := .pins w, queryWord := q, now := now }

/-! ## Well-formedness refuses ill-formed terms (R65, R66, R78, 92_eei_decisions.md) -/

theorem test_wf_refuses_idk_zero : (Instr.idk 0 0#7).wf = false := by decide
theorem test_wf_refuses_idk_five : (Instr.idk 5 0#7).wf = false := by decide
theorem test_wf_refuses_datj_twelve : (Instr.datj 12 0#7).wf = false := by decide
theorem test_wf_accepts_bounds : (Instr.idk 4 0#7).wf = true ∧ (Instr.datj 11 0#7).wf = true := by decide
theorem test_wf_refuses_tw_one : ({ tw := 1, cacheEntries := none } : Config.Params).wf = false := by decide
theorem test_wf_refuses_no_entries : ({ tw := 32, cacheEntries := some 0 } : Config.Params).wf = false := by decide
theorem test_wf_refuses_enc_idl : ({ id := 0#34, ext := false, idl := 1, data := [] } : EncArgs).wf = false ∧
    ({ id := 0#34, ext := false, idl := 6, data := [] } : EncArgs).wf = false := by decide
theorem test_wf_refuses_enc_reach : ({ id := 0x2000#34, ext := false, idl := 2, data := [] } : EncArgs).wf = false := by decide
theorem test_wf_refuses_enc_length :
    ({ id := 0#34, ext := false, idl := 5, data := List.replicate 10 0#8 } : EncArgs).wf = false := by decide
theorem test_wf_refuses_enc_lost_bit :
    ({ id := 0#34, ext := false, idl := 2, data := 0x80#8 :: List.replicate 8 0#8 } : EncArgs).wf = false := by decide

/-! ## Words written out bit by bit from 30_encoding.md -/

theorem test_word_reset : decode (.step 0b1_11_11111111#11) = .ok .reset := by decide
theorem test_word_nop : decode (.step 0b000_10101010#11) = .ok .nop := by decide
theorem test_word_acc : decode (.step 0b011_00100011#11) = .ok (.acc true 0x23#7) := by decide
theorem test_word_frm : decode (.step 0b001_11100101#11) = .ok (.frm false { k := true, ll := 0b10#2, nnnn := 0b0101#4 }) := by
  decide
theorem test_word_close : decode (.step 0b010_10000011#11) = .ok .close := by decide
theorem test_word_query : decode (.query 0x7FFFFFFFE#35) = .ok (.query 0x3FFFFFFFE#34) := by decide
theorem test_word_payload : decode (.wire 0b01111110#8) = .ok (.payload 0b1111110#7) := by decide
theorem test_word_framing : decode (.wire 0b10010011#8) = .ok (.framing { k := false, ll := 0b01#2, nnnn := 0b0011#4 }) := by
  decide
theorem test_word_id0 : decode (.inFrame .id0 0b01000101#8) = .ok (.id0 true 0b000101#6) := by decide
theorem test_word_idk : decode (.inFrame (.idk 2) 0b00001001#8) = .ok (.idk 2 0b0001001#7) := by decide
theorem test_word_datj : decode (.inFrame (.datj 11) 0b01110000#8) = .ok (.datj 11 0b1110000#7) := by decide
theorem test_word_cry : decode (.inFrame .cry 0b01000000#8) = .ok (.cry 0b1000000#7) := by decide
theorem test_word_rejects : decode (.inFrame (.idk 5) 0#8) = .error .noSuchPosition ∧
    decode (.inFrame (.datj 12) 0#8) = .error .noSuchPosition ∧ decode (.query 0x36#35) = .error .noQuery := by decide
theorem test_table_words : decodeTableWord 11 0x400 = some .reset ∧ decodeTableWord 8 0x80 = some (.framing (fb 0x80#8)) ∧
    decodeTableWord 35 0x400000000 = some (.query 0#34) ∧ decodeTableWord 16 0x800 = none := by decide

/-- 30_encoding.md R69: of the 128 framing bytes, 36 are short, 20 over-long and 72 conforming. -/
theorem test_framing_byte_classes :
    let all := (List.range 128).map (fun n => fb (BitVec.ofNat 8 (128 + n)))
    all.countP (fun f => decide (f.tl < f.idl + 1)) = 36 ∧
      all.countP (fun f => decide (f.idl + 1 ≤ f.tl) && decide (8 < f.dn)) = 20 := by decide

/-- 95_test_vectors.md 2.6. -/
theorem test_enc_v3 :
    encFrame { id := 0x1FFFFFFF#34, ext := true, idl := 5, data := [0x80#8, 0x01#8, 0x7F#8, 0xFE#8, 0x00#8, 0xAA#8, 0x55#8, 0xC3#8] } =
      [0x7F#8, 0x7F#8, 0x7F#8, 0x7F#8, 0x03#8, 0x00#8, 0x01#8, 0x7F#8, 0x7E#8, 0x00#8, 0x2A#8, 0x55#8, 0x43#8, 0x29#8, 0xFE#8] := by
  decide
theorem test_enc_v11 : encFrame { id := 0x12345#34, ext := true, idl := 3, data := [0xF0#8, 0x0F#8] } =
    [0x45#8, 0x0D#8, 0x09#8, 0x70#8, 0x0F#8, 0x40#8, 0x96#8] := by decide

/-! ## One step each -/

/-- Y5. -/
theorem test_reset :
    view (exec .reset (holding 0x36#34 [1#8] [true] 7 { collected [0x36#8, 0#8, 1#8] 9 with halt := true, hkind := .decodeIncomplete }))
      (fun t => (t.cnt, t.halt, t.hkind, t.cache)) = some (0, false, .noFailure, []) := by decide

/-- A3: a `NOP` between two bytes of a frame. -/
theorem test_nop : view (exec .nop (collected [0x23#8, 0x04#8] 0)) (fun t => (t.cnt, t.out, t.err)) = some (2, none, none) := by
  decide

/-- A5: the 15th byte is stored. -/
theorem test_acc_fifteenth :
    view (exec (.acc false 0x55#7) (collected (List.replicate 14 1#8) 0)) (fun t => (t.cnt, bufRead t.buf 14)) =
      some (15, 0x55#8) := by decide

/-- A6: the 16th byte is counted and not stored. -/
theorem test_acc_sixteenth :
    view (exec (.acc false 0x55#7) (collected (List.replicate 15 1#8) 0)) (fun t => (t.cnt, t.buf)) =
      some (16, Vector.replicate 15 1#8) := by decide

/-- Y6: the record of the frame and the close, in one step. -/
theorem test_frm_with_close :
    view (exec (.frm true (fb 0x83#8)) (collected [0x23#8, 0x04#8, 0x00#8] 2))
      (fun t => (t.out.map (fun r => (r.outId, r.outLen, r.outTime)), t.halt, t.hkind)) =
      some (some (0x123#34, 0#4, 2), true, .transportClosed) := by decide

/-- W2: V11 with its split corrupted is accepted. -/
theorem test_frm_wrong_split :
    view (exec (.frm false (fb 0xA6#8)) (collected [0x45#8, 0x0D#8, 0x09#8, 0x70#8, 0x0F#8, 0x40#8] 0))
      (fun t => t.out.map (fun r => (r.outId, r.outExt, r.outLen, r.outData[0], r.outMask[0]))) =
      some (some (0x7012345#34, true, 1#4, 0x0F#8, true)) := by decide

/-- Y2. -/
theorem test_close_mid_frame :
    view (exec .close (collected [0x36#8, 0#8, 1#8] 0)) (fun t => (t.halt, t.hkind, t.cnt, t.err)) =
      some (true, .decodeIncomplete, 3, none) := by decide

/-- Y1. -/
theorem test_close_between_frames :
    view (exec .close State.reset) (fun t => (t.halt, t.hkind)) = some (true, .transportClosed) := by decide

/-- K13: age (1 - 14) mod 16 = 3 is stale, age 2 at time 0 is fresh. -/
theorem test_query_modular_age :
    let s := fun now => { holding 0x36#34 [1#8] [true] 14 (collected [] now) with cfg := { tw := 4, cacheEntries := none } }
    let seen := fun t : State => t.query.map (fun a => match a with
      | .miss => (false, false, false)
      | .hit h => (h.qFresh, h.qMask[0], h.qEffMask[0]))
    view (exec (.query 0x36#34) (s 0)) seen = some (some (true, true, true)) ∧
      view (exec (.query 0x36#34) (s 1)) seen = some (some (false, true, false)) := by decide

/-- K10. -/
theorem test_query_miss : view (exec (.query 0x36#34) State.reset) (fun t => t.query) = some (some .miss) := by decide

/-- A14. -/
theorem test_payload : view (exec (.payload 0x7F#7) State.reset) (fun t => (t.cnt, bufRead t.buf 0)) = some (1, 0x7F#8) := by decide

/-- M9: both too long and short reads as `LengthMismatch`. -/
theorem test_framing_mismatch_first :
    view (exec (.framing (fb 0x81#8)) (collected [0x23#8, 0x04#8] 0)) (fun t => (t.cnt, t.err, t.out)) =
      some (0, some .lengthMismatch, none) := by decide

/-- M3. -/
theorem test_framing_short :
    view (exec (.framing (fb 0x93#8)) (collected [0x23#8, 0x04#8, 0x00#8] 0)) (fun t => (t.cnt, t.err, t.out)) =
      some (0, some .shortFrame, none) := by decide

/-- V11: `45` is `ext` 1 and 5. -/
theorem test_id0 : view (exec (.id0 true 0x05#6) State.reset) (fun t => (t.work.ext, t.work.id)) = some (true, 0x05#34) := by decide

/-- V3 worked in full: 03 << 27 = 18000000. -/
theorem test_idk_top : view (exec (.idk 4 0x03#7) State.reset) (fun t => t.work.id) = some 0x18000000#34 := by decide

/-- V3 worked in full: j = 7 gives data[7] = C3 and carry 52. -/
theorem test_datj :
    view (exec (.datj 7 0x43#7) { State.reset with work := { Work.blank with carry := 0xA9#8 } })
      (fun t => (t.work.data[7], t.work.carry)) = some (0xC3#8, 0x52#8) := by decide

/-- V3 worked in full: carry = 1 :: 0101001 = A9. -/
theorem test_cry : view (exec (.cry 0x29#7) { State.reset with work := Work.start (fb 0xFE#8) }) (fun t => t.work.carry) =
    some 0xA9#8 := by decide

/-- V3. -/
theorem test_decode_v3 :
    view (exec (.decode (fb 0xFE#8)) (collected [0x7F#8, 0x7F#8, 0x7F#8, 0x7F#8, 0x03#8, 0x00#8, 0x01#8, 0x7F#8, 0x7E#8, 0x00#8,
      0x2A#8, 0x55#8, 0x43#8, 0x29#8] 0)) (fun t => t.decoded) =
      some (some (.ok
        { id := 0x1FFFFFFF#34, ext := true, data := [0x80#8, 0x01#8, 0x7F#8, 0xFE#8, 0x00#8, 0xAA#8, 0x55#8, 0xC3#8] })) := by decide

/-- V16, over-long. -/
theorem test_decode_v16 :
    view (exec (.decode (fb 0xCF#8)) (collected [0x15#8, 0x05#8, 0x01#8, 0x02#8, 0x03#8, 0x04#8, 0x05#8, 0x06#8, 0x07#8, 0x08#8,
      0x09#8, 0x0A#8, 0x0B#8, 0x0C#8, 0x55#8] 0)) (fun t => t.decoded) =
      some (some (.ok
        { id := 0x155#34, ext := false, data := [0x01#8, 0x02#8, 0x03#8, 0x04#8, 0x85#8, 0x06#8, 0x87#8, 0x08#8, 0x89#8, 0x0A#8, 0x8B#8, 0x8C#8] })) := by decide

/-- The example of R150 (K3). -/
theorem test_observe_differs :
    view (exec .observe (decodedTo 0x36#34 [1#8, 0x82#8, 3#8] (holding 0x36#34 [1#8, 2#8, 3#8] [true, true, true] 10 (collected [] 12))))
      (fun t => (t.mask, t.cache)) =
      some (some [false, true, false],
        [(0x36#34, { lastData := [1#8, 0x82#8, 3#8], diffMask := [false, true, false], lastSeen := 12 })]) := by decide

/-- K15: a second identifier in a cache of one entry. -/
theorem test_observe_full :
    view (exec .observe { decodedTo 0x123#34 [] (holding 0x36#34 [1#8] [true] 1 (collected [] 2)) with
        cfg := { tw := 32, cacheEntries := some 1 } }) (fun t => (t.mask, t.ovf, t.cache.length)) =
      some (some [], true, 1) := by decide

/-- The example of R157. -/
theorem test_emit :
    view (exec .emit { decodedTo 0x36#34 [1#8, 0x82#8, 3#8] (collected [] 12) with mask := some [false, true, false] })
      (fun t => t.out.map (fun r => (r.outLen, r.outTime, r.outMask.toList.take 4, r.outData[3]))) =
      some (some (3#4, 12, [false, true, false, false], 0#8)) := by decide

/-- K14: the query of the framing byte's own step misses. -/
theorem test_step_query_before_ingest :
    view (step { collected [0x36#8, 0#8, 1#8, 2#8, 3#8, 0#8] 0 with pins := [sample 0x186#11 0x400000036#35 10] })
      (fun t => (t.query, t.out.map (fun r => r.outTime), t.cache.length)) = some (some .miss, some 10, 1) := by decide

/-- Y9: `rst` = 1 with a byte. -/
theorem test_step_reset_wins :
    view (step { collected [0x23#8, 4#8, 0#8] 0 with pins := [sample 0x583#11 0#35 1] }) (fun t => (t.cnt, t.out, t.cache)) =
      some (0, none, []) := by decide

/-- The word that is presented is the word that runs. -/
theorem test_withFetchWord :
    view (step (State.reset.withFetchWord 11 0x123)) (fun t => (t.cnt, bufRead t.buf 0, t.pins)) = some (1, 0x23#8, []) ∧
      view (step (State.reset.withFetchWord 8 0x80)) (fun t => t.err) = some (some .shortFrame) ∧
      view (step (State.reset.withFetchWord 35 0x400000036)) (fun t => t.query) = some (some .miss) := by decide

/-! ## Witnesses: for the hypotheses of each statement a state and operands that meet them, each clause at a bound of its range -/

/-- `StepWordSelectsByTable`: a word of each row, the bits that are not looked at all 1. -/
theorem witness_StepWordSelectsByTable :
    0x7FF#11 &&& 0x400#11 = 0x400#11 ∧ 0x0FF#11 &&& 0x700#11 = 0x000#11 ∧ 0x37F#11 &&& 0x580#11 = 0x100#11 ∧
      0x3FF#11 &&& 0x580#11 = 0x180#11 ∧ 0x2FF#11 &&& 0x700#11 = 0x200#11 := by decide

theorem witness_DecodeOfEncode : (Instr.idk 4 0x7F#7).wf = true ∧ encode (.idk 4 0x7F#7) = some (.inFrame (.idk 4) 0x7F#8) ∧
    (Instr.datj 11 0x7F#7).wf = true ∧ encode (.datj 11 0x7F#7) = some (.inFrame (.datj 11) 0x7F#8) := by decide

theorem witness_WireByteClassIsBitSeven : (0x80#8).getLsbD 7 = true ∧ (0x7F#8).getLsbD 7 = false := by decide

/-- `RolesGoByPosition`: the longest identifier, positions 0, 1, 4 (`IDk`), 5 and 13 (`DATj`, `j` = 0 and 8), 14 (`CRY`); the
shortest frame, whose position 2 is the carry byte. -/
theorem witness_RolesGoByPosition :
    (fb 0xFF#8).idl + 1 ≤ (fb 0xFF#8).tl ∧ 14 < (fb 0xFF#8).tl ∧ (fb 0xFF#8).idl = 5 ∧ 13 = (fb 0xFF#8).idl + 8 ∧
      8 < (fb 0xFF#8).dn ∧ 14 = (fb 0xFF#8).tl - 1 ∧ (fb 0x83#8).idl + 1 ≤ (fb 0x83#8).tl ∧ 2 = (fb 0x83#8).tl - 1 := by decide

theorem witness_ErrorKindCodes :
    ({ State.reset with hkind := .decodeIncomplete } : State).hkind = .decodeIncomplete ∧
      ({ State.reset with hkind := .transportClosed } : State).hkind = .transportClosed ∧ State.reset.hkind = .noFailure ∧
      State.reset.err = none ∧ ({ State.reset with err := some .lengthMismatch } : State).err = some .lengthMismatch ∧
      ({ State.reset with err := some .shortFrame } : State).err = some .shortFrame := by decide

theorem witness_ResetOperation : (0x583#11).getLsbD 10 = true := by decide

/-- The halted core of Y2, with a pulse still up. -/
def halted : State := { collected [0x36#8, 0#8, 1#8] 0 with halt := true, hkind := .decodeIncomplete }

theorem witness_HaltedCoreIgnoresEvents : halted.halt = true := by decide

theorem witness_ByteThenCloseInOneStep : (collected [0x23#8, 0x04#8] 0).halt = false := by decide

/-- Both cases, the second at the last byte stored, the first not stored, and saturation. -/
theorem witness_PayloadByteStoredAndCounted :
    halted.halt = true ∧
      (let s := collected (List.replicate 14 1#8) 0; s.halt = false ∧ s.cnt = 14) ∧
      (let s := collected (List.replicate 15 1#8) 0; s.halt = false ∧ s.cnt = 15) ∧
      (let s := collected (List.replicate 16 1#8) 0; s.halt = false ∧ s.cnt = 16) := by decide

/-- `MalformedFrameIsDropped`: M7 (`ShortFrame`) and A8 (16 bytes against 15). -/
theorem witness_MalformedFrameIsDropped :
    (let s := collected [0x23#8, 4#8, 0#8, 0#8, 0#8] 0;
      s.halt = false ∧ refDecode s.cnt.val (bufRead s.buf) (fb 0xB5#8) = .malformed .shortFrame) ∧
    (let s := collected (List.replicate 16 1#8) 0;
      s.halt = false ∧ refDecode s.cnt.val (bufRead s.buf) (fb 0x8F#8) = .malformed .lengthMismatch) := by decide

/-- The pulse clause of `MalformedFrameIsDropped`. -/
theorem witness_MalformedFrameIsDropped_pulse : ∃ t, exec (.framing (fb 0x80#8)) State.reset = .next t ∧
    t.err = some .shortFrame := ⟨_, rfl, by decide⟩

/-- `GoodFrameIsObservedAndEmitted`: V1 (no data) and W1. -/
theorem witness_GoodFrameIsObservedAndEmitted :
    (let s := collected [0x23#8, 4#8, 0#8] 5;
      s.halt = false ∧ refDecode s.cnt.val (bufRead s.buf) (fb 0x83#8) = .ok { id := 0x123#34, ext := false, data := [] }) ∧
    (let s := collected [0x45#8, 0x0D#8, 0x09#8, 0x70#8, 0x0F#8, 0x40#8] 0;
      s.halt = false ∧ refDecode s.cnt.val (bufRead s.buf) (fb 0x86#8) =
        .ok { id := 0x345#34, ext := true, data := [0x09#8, 0xF0#8, 0x0F#8] }) := by decide

theorem witness_FrmRunsTheInternalOperations :
    let s := collected [0x36#8, 3#8, 0x55#8, 0#8] 0
    s.halt = false ∧ refDecode s.cnt.val (bufRead s.buf) (fb 0xC4#8) = .ok { id := 0xF6#34, ext := false, data := [0xD5#8] } := by
  decide

theorem witness_DecodeIsTheRolesInOrder :
    (let s := collected (List.replicate 15 1#8) 0; s.cnt.val = (fb 0x8F#8).tl ∧ (fb 0x8F#8).idl + 1 ≤ (fb 0x8F#8).tl) ∧
      (let s := collected (List.replicate 3 1#8) 0; s.cnt.val = (fb 0x83#8).tl ∧ (fb 0x83#8).idl + 1 ≤ (fb 0x83#8).tl) := by
  decide

/-- Each side of the three equivalences of `RejectedExactlyWhen` holds of some frame. -/
theorem witness_RejectedExactlyWhen :
    (1 : Fin 17).val ≠ (fb 0x80#8).tl ∧ ((3 : Fin 17).val = (fb 0x93#8).tl ∧ (fb 0x93#8).tl < (fb 0x93#8).idl + 1) ∧
      ((4 : Fin 17).val = (fb 0x94#8).tl ∧ (fb 0x94#8).idl + 1 ≤ (fb 0x94#8).tl) := by decide

/-- `UnusedCarryBitsIgnored`: X1 beside the same frame with a clear carry byte (one data byte, carry bit 7 alone is used). -/
theorem witness_UnusedCarryBitsIgnored :
    let b1 := (collected [0x36#8, 3#8, 0x55#8, 0#8] 0).buf
    let b2 := (collected [0x36#8, 3#8, 0x55#8, 0x7F#8] 0).buf
    b1 ≠ b2 ∧ (∀ p, p + 1 < (fb 0x84#8).tl → bufRead b2 p = bufRead b1 p) ∧
      (∀ b, b < 8 → 8 ≤ b + (fb 0x84#8).dn →
        (refCarry (bufRead b2) (fb 0x84#8)).getLsbD b = (refCarry (bufRead b1) (fb 0x84#8)).getLsbD b) ∧
      (fb 0x84#8).idl + 1 ≤ (fb 0x84#8).tl := by
  refine ⟨by decide, fun p hp => ?_, fun b h1 h2 => ?_, by decide⟩
  · have h : p + 1 < 4 := hp
    have h : p < 3 := by omega
    interval_cases p <;> decide
  · have h : 8 ≤ b + 1 := h2
    obtain rfl : b = 7 := by omega
    decide

/-- The same with no data bytes: X3 beside V1, the framing byte's own carry bit differs too. -/
theorem witness_UnusedCarryBitsIgnored_no_data :
    let b1 := (collected [0x23#8, 4#8, 0#8] 0).buf
    let b2 := (collected [0x23#8, 4#8, 0x7F#8] 0).buf
    b1 ≠ b2 ∧ (fb 0xC3#8).ll = (fb 0x83#8).ll ∧ (fb 0xC3#8).nnnn = (fb 0x83#8).nnnn ∧
      (∀ p, p + 1 < (fb 0x83#8).tl → bufRead b2 p = bufRead b1 p) ∧
      (∀ b, b < 8 → 8 ≤ b + (fb 0x83#8).dn →
        (refCarry (bufRead b2) (fb 0xC3#8)).getLsbD b = (refCarry (bufRead b1) (fb 0x83#8)).getLsbD b) ∧
      (fb 0x83#8).idl + 1 ≤ (fb 0x83#8).tl := by
  refine ⟨by decide, by decide, by decide, fun p hp => ?_, fun b h1 h2 => ?_, by decide⟩
  · have h : p + 1 < 3 := hp
    have h : p < 2 := by omega
    interval_cases p <;> decide
  · have h : 8 ≤ b + 0 := h2
    omega

/-- `OverlongFrameDecoded` at both ends of its range, 9 and 12 data bytes. -/
theorem witness_OverlongFrameDecoded :
    ((15 : Fin 17).val = (fb 0xCF#8).tl ∧ (fb 0xCF#8).idl + 1 ≤ (fb 0xCF#8).tl ∧ 8 < (fb 0xCF#8).dn) ∧
      ((15 : Fin 17).val = (fb 0xFF#8).tl ∧ (fb 0xFF#8).idl + 1 ≤ (fb 0xFF#8).tl ∧ 8 < (fb 0xFF#8).dn) := by decide

/-- A running core whose next bytes are `bs`. -/
def fed (bs : List Byte) : State := { State.reset with pins := bs.map (byteSample 5) ++ [] }

/-- `BoundedBufferLosesNothing`: 20 payload bytes, more than the buffer holds (A7). -/
theorem witness_BoundedBufferLosesNothing :
    let bs := List.replicate 20 1#8
    (fed bs).halt = false ∧ (fed bs).cnt = 0 ∧ (∀ b ∈ bs, b.getLsbD 7 = false) ∧ (fed bs).pins = bs.map (byteSample 5) ++ [] := by
  decide

/-- `EncodedFrameIsRecovered`: the longest conforming frame (V7) and the shortest (V1). -/
theorem witness_EncodedFrameIsRecovered :
    (let a : EncArgs := { id := 0x3FFFFFFFF#34, ext := true, idl := 5, data := List.replicate 8 0xFF#8 };
      (fed (encFrame a)).halt = false ∧ (fed (encFrame a)).cnt = 0 ∧ a.wf = true ∧
        (fed (encFrame a)).pins = (encFrame a).map (byteSample 5) ++ [] ∧
        hasRoom (fed (encFrame a)).cfg (fed (encFrame a)).cache = true) ∧
    ({ id := 0x1FFF#34, ext := false, idl := 2, data := [] } : EncArgs).wf = true := by decide

/-- `WrongCountIsDropped`: M1, one byte too few, and a frame of 16 bytes. -/
theorem witness_WrongCountIsDropped :
    (let bs := [0x23#8, 4#8, 0#8];
      (∀ b ∈ bs, b.getLsbD 7 = false) ∧ bs.length ≠ (fb 0x84#8).tl ∧ (fed (bs ++ [(fb 0x84#8).toByte])).halt = false ∧
        (fed (bs ++ [(fb 0x84#8).toByte])).cnt = 0 ∧
        (fed (bs ++ [(fb 0x84#8).toByte])).pins = (bs ++ [(fb 0x84#8).toByte]).map (byteSample 5) ++ []) ∧
    (let bs := List.replicate 16 1#8;
      (∀ b ∈ bs, b.getLsbD 7 = false) ∧ bs.length ≠ (fb 0x8F#8).tl) := by decide

/-- `ResynchronisesAtTheNextMarker`: P3, attaching in mid-frame. -/
theorem witness_ResynchronisesAtTheNextMarker :
    let a : EncArgs := { id := 0x208#34, ext := false, idl := 2, data := [1#8, 0x82#8, 3#8] }
    let s := { collected [2#8, 3#8, 0#8] 7 with pins := ((fb 0x86#8).toByte :: encFrame a).map (byteSample 7) ++ [] }
    s.halt = false ∧ a.wf = true ∧ s.pins = ((fb 0x86#8).toByte :: encFrame a).map (byteSample 7) ++ [] := by decide

/-! ### The cache -/

/-- 0x36 holds [01 02 03], seen at 10; `data` has just been decoded for `id`; the cache can hold `n` entries. -/
def observing (n : Option Nat) (id : Ident) (data : List Byte) : State :=
  { decodedTo id data (holding 0x36#34 [1#8, 2#8, 3#8] [true, true, true] 10 (collected [] 12)) with
    cfg := { tw := 32, cacheEntries := n } }

theorem witness_ObserveUnseen :
    let s := observing (some 2) 0x37#34 []
    s.decoded = some (.ok { id := 0x37#34, ext := false, data := [] }) ∧ s.cache.read 0x37#34 = none ∧
      hasRoom s.cfg s.cache = true := by decide

theorem witness_ObserveUnseenWhenFull :
    let s := observing (some 1) 0x37#34 [1#8]
    s.decoded = some (.ok { id := 0x37#34, ext := false, data := [1#8] }) ∧ s.cache.read 0x37#34 = none ∧
      s.cfg.cacheEntries = some 1 ∧ 1 ≤ s.cache.length := by decide

theorem witness_ObserveIdentical :
    let s := observing none 0x36#34 [1#8, 2#8, 3#8]
    s.decoded = some (.ok { id := 0x36#34, ext := false, data := [1#8, 2#8, 3#8] }) ∧
      s.cache.read 0x36#34 = some { lastData := [1#8, 2#8, 3#8], diffMask := [true, true, true], lastSeen := 10 } := by decide

theorem witness_ObserveSameLengthDiffers :
    let s := observing none 0x36#34 [1#8, 0x82#8, 3#8]
    s.decoded = some (.ok { id := 0x36#34, ext := false, data := [1#8, 0x82#8, 3#8] }) ∧
      s.cache.read 0x36#34 = some { lastData := [1#8, 2#8, 3#8], diffMask := [true, true, true], lastSeen := 10 } ∧
      [1#8, 2#8, 3#8].length = [1#8, 0x82#8, 3#8].length ∧ [1#8, 2#8, 3#8] ≠ [1#8, 0x82#8, 3#8] := by decide

theorem witness_ObserveLengthDiffers :
    let s := observing none 0x36#34 [1#8, 2#8]
    s.decoded = some (.ok { id := 0x36#34, ext := false, data := [1#8, 2#8] }) ∧
      s.cache.read 0x36#34 = some { lastData := [1#8, 2#8, 3#8], diffMask := [true, true, true], lastSeen := 10 } ∧
      [1#8, 2#8, 3#8].length ≠ [1#8, 2#8].length := by decide

theorem witness_NothingToObserveOrEmit :
    (∀ f, ({ State.reset with decoded := some (.malformed .shortFrame) } : State).decoded ≠ some (.ok f)) ∧
      (observing none 0x36#34 [1#8]).mask = none := by
  constructor
  · simp
  · decide

/-- `ObserveTwice`: an identifier that fits, one that is there in a full cache, one that does not fit. -/
theorem witness_ObserveTwice :
    (∃ t, exec .observe (observing (some 2) 0x37#34 [1#8]) = .next t) ∧
      hasRoom (observing (some 2) 0x37#34 [1#8]).cfg (observing (some 2) 0x37#34 [1#8]).cache = true ∧
      (observing (some 1) 0x36#34 [1#8]).cache.read 0x36#34 ≠ none ∧
      (∃ t, exec .observe (observing (some 1) 0x37#34 [1#8]) = .next t) ∧
      hasRoom (observing (some 1) 0x37#34 [1#8]).cfg (observing (some 1) 0x37#34 [1#8]).cache = false ∧
      (observing (some 1) 0x37#34 [1#8]).cache.read 0x37#34 = none :=
  ⟨⟨_, rfl⟩, by decide, by decide, ⟨_, rfl⟩, by decide, by decide⟩

theorem witness_ExtendedIsNotInTheKey :
    (observing none 0x36#34 [1#8]).decoded = some (.ok { id := 0x36#34, ext := false, data := [1#8] }) := by decide

/-- `EmitDrivesTheRecord`: the longest record the decoder can deliver. -/
theorem witness_EmitDrivesTheRecord :
    let s := { observing none 0x155#34 (List.replicate 12 1#8) with mask := some (List.replicate 12 true) }
    s.decoded = some (.ok { id := 0x155#34, ext := false, data := List.replicate 12 1#8 }) ∧
      s.mask = some (List.replicate 12 true) ∧ (List.replicate 12 true).length = (List.replicate 12 1#8).length := by decide

theorem witness_QueryAnswersFromTheCache :
    (observing none 0x36#34 []).cache.read 0x37#34 = none ∧
      (observing none 0x36#34 []).cache.read 0x36#34 =
        some { lastData := [1#8, 2#8, 3#8], diffMask := [true, true, true], lastSeen := 10 } := by decide

/-- `FreshForTwoTicks`: K13's width, the ages on both sides of the window and the last one. -/
theorem witness_FreshForTwoTicks :
    ({ tw := 4, cacheEntries := none } : Config.Params).wf = true ∧ (14 : Nat) < 2 ^ 4 ∧ (2 : Nat) < 2 ^ 4 ∧ (3 : Nat) < 2 ^ 4 ∧
      (15 : Nat) < 2 ^ 4 := by decide

/-- `StaleEntryShowsNoChange`: a fresh hit and a stale one. -/
theorem witness_StaleEntryShowsNoChange :
    (∃ t h, exec (.query 0x36#34) (observing none 0x36#34 []) = .next t ∧ t.query = some (.hit h) ∧ h.qFresh = true) ∧
      ∃ t h, exec (.query 0x36#34) { observing none 0x36#34 [] with now := 13 } = .next t ∧ t.query = some (.hit h) ∧
        h.qFresh = false :=
  ⟨⟨_, _, rfl, rfl, by decide⟩, ⟨_, _, rfl, rfl, by decide⟩⟩

/-! ### Steps -/

theorem witness_StepRunsTheSelectedOperation :
    (sample 0x123#11 0x36#35 0).queryWord.getLsbD 34 = false ∧ (sample 0x400#11 0x400000036#35 0).queryWord.getLsbD 34 = true ∧
      (State.reset.withFetchWord 11 0x123).pins = [sample 0x123#11 0#35 0] := by decide

theorem witness_SilentTransportIsAWait :
    (collected [0x23#8, 4#8] 7).pins = [] ∧ (collected [0x23#8, 4#8] 7).now < 2 ^ (collected [0x23#8, 4#8] 7).cfg.tw := by decide

theorem witness_QueryReadsBeforeTheIngest :
    ({ State.reset with pins := [{ sample 0x123#11 0#35 3 with queryWord := 1#1 ++ 0x36#34 }] } : State).pins =
      { sample 0x123#11 0#35 3 with queryWord := 1#1 ++ 0x36#34 } :: [] := by decide

/-- `PulsesOnlyWhenAFrameEnds`: a step of each kind, a drop and a record. -/
theorem witness_PulsesOnlyWhenAFrameEnds :
    (∃ t, step (fed [0x23#8]) = .next t ∧ (fed [0x23#8]).presented = .acc false 0x23#7) ∧
      (∃ t, step (fed [0x80#8]) = .next t ∧ (fed [0x80#8]).presented = .frm false (fb 0x80#8) ∧ t.err = some .shortFrame) ∧
      (∃ t, step { collected [0x23#8, 4#8, 0#8] 0 with pins := [byteSample 5 0x83#8] } = .next t ∧ t.out ≠ none) ∧
      (∃ t, step { halted with pins := [byteSample 5 0x83#8] } = .next t) :=
  ⟨⟨_, rfl, by decide⟩, ⟨_, rfl, by decide, by decide⟩, ⟨_, rfl, by decide⟩, ⟨_, rfl⟩⟩

theorem witness_ParametersNeverChange : ∃ t, step (fed [0x23#8]) = .next t := ⟨_, rfl⟩

/-- A halted core whose cache has overflowed, a byte presented. -/
def haltedFull : State := { halted with ovf := true, pins := [byteSample 5 0x86#8] }

theorem witness_FlagsAreSticky :
    ∃ t, step haltedFull = .next t ∧ haltedFull.presented ≠ .reset ∧ haltedFull.halt = true ∧ haltedFull.ovf = true :=
  ⟨_, rfl, by decide, by decide, by decide⟩

theorem witness_HaltedUntilReset :
    ∃ t, run 3 haltedFull = .next t ∧ haltedFull.halt = true ∧ haltedFull.out = none ∧ haltedFull.err = none ∧
      ∀ p ∈ haltedFull.pins, decodeIngest p.ingest ≠ .reset :=
  ⟨_, rfl, by decide, by decide, by decide, by decide⟩

/-- V1's framing byte presented to a core that holds an entry for 0x36. -/
def closing : State :=
  { holding 0x36#34 [1#8] [true] 3 (collected [0x23#8, 4#8, 0#8] 5) with pins := [byteSample 5 0x83#8] }

theorem witness_EntriesPersist :
    ∃ t, step closing = .next t ∧ closing.presented ≠ .reset ∧ closing.cache.read 0x36#34 ≠ none :=
  ⟨_, rfl, by decide, by decide⟩

/-- `OnlyTheDecodedIdentifierChanges`: the frame is for 0x123, the entry that must stay is 0x36's. -/
theorem witness_OnlyTheDecodedIdentifierChanges :
    ∃ t, step closing = .next t ∧ closing.presented = .frm false (fb 0x83#8) ∧
      decodeFrame closing.buf closing.cnt (fb 0x83#8) = .ok { id := 0x123#34, ext := false, data := [] } ∧
      (0x123#34 : Ident) ≠ 0x36#34 := ⟨_, rfl, by decide, by decide, by decide⟩

/-- `NoRecordNoCacheChange`: an identical frame (K2), the case in which an entry is found and not touched. -/
theorem witness_NoRecordNoCacheChange :
    let s := { holding 0x123#34 [] [] 3 (collected [0x23#8, 4#8, 0#8] 5) with pins := [byteSample 5 0x83#8] }
    ∃ t, step s = .next t ∧ s.presented ≠ .reset ∧ t.out = none := ⟨_, rfl, by decide, by decide⟩

/-- `RecordShowsTheStoredEntry`: a record whose entry is stored, and one that did not fit. -/
theorem witness_RecordShowsTheStoredEntry :
    (∃ t r, step closing = .next t ∧ t.out = some r ∧ t.cache.read r.outId ≠ none) ∧
      ∃ t r, step { closing with cfg := { tw := 32, cacheEntries := some 1 } } = .next t ∧ t.out = some r ∧
        t.cache.read r.outId = none ∧ t.ovf = true :=
  ⟨⟨_, _, rfl, rfl, by decide⟩, ⟨_, _, rfl, rfl, by decide, by decide⟩⟩

theorem witness_UnboundedCacheNeverOverflows :
    ∃ t, haltedFull.cfg.cacheEntries = none ∧ step haltedFull = .next t ∧ t.ovf = true := ⟨_, by decide, rfl, by decide⟩

/-- `DeadRegistersAreNeverRead`: two cores that differ in `BUF[3]` with `CNT` = 3, about to decode a frame. -/
theorem witness_DeadRegistersAreNeverRead :
    closing.sameButDeadBytes { closing with buf := closing.buf.set 3 0x55#8 } ∧
      closing ≠ { closing with buf := closing.buf.set 3 0x55#8 } := by
  refine ⟨⟨rfl, ?_⟩, by decide⟩
  intro i hi _
  have h : i < 3 := hi
  interval_cases i <;> decide

/-- `InvariantKeptByEveryStep`: a core in mid-frame with a full cache, an overflow, a halt and a pulse meets the invariant. -/
def busy : State :=
  { holding 0x36#34 [1#8, 2#8] [false, true] 7 (collected [0x23#8, 4#8, 0#8] 9) with
    cfg := { tw := 4, cacheEntries := some 1 }
    ovf := true
    halt := true
    hkind := .decodeIncomplete
    err := some .shortFrame
    pins := [byteSample 5 0x83#8] }

theorem witness_InvariantKeptByEveryStep : busy.Inv ∧ ∃ t, step busy = .next t := by
  refine ⟨⟨by decide, by decide, by decide, ?_, by decide, by decide, by decide, ?_, by decide, ?_, by decide⟩, ⟨_, rfl⟩⟩
  · intro n hn
    cases hn
    decide
  · intro i hi _
    have h : i < 3 := hi
    interval_cases i <;> decide
  · intro r hr
    cases hr

/-- `NoOverflowMeansUnboundedRun`: a cache of one entry, which a frame fills. -/
theorem witness_NoOverflowMeansUnboundedRun :
    let s := { fed [0x23#8, 4#8, 0#8, 0x83#8] with cfg := { tw := 32, cacheEntries := some 1 } }
    (∀ p ∈ s.pins, decodeIngest p.ingest ≠ .reset) ∧ ∃ t, run 4 s = .next t ∧ t.ovf = false ∧ t.cache.length = 1 :=
  ⟨by decide, _, rfl, by decide, by decide⟩

end Sys2Proof.Tests
end

section
/-! Scope: what a step performs (R9, R50, R60), and that every step completes (R12). -/

namespace Sys2Proof.Machine

/-! ### The waiting sample -/

section
variable {s : State} {p : PinSample} {rest : List PinSample}

theorem State.nextSample_of_pins (h : s.pins = p :: rest) : s.nextSample = p := by
  simp [State.nextSample, h]

theorem State.presented_of_pins (h : s.pins = p :: rest) : s.presented = decodeIngest p.ingest := by
  rw [State.presented, State.nextSample_of_pins h]

/-- Sampling uses up the oldest sample and takes `now` from it (R29). -/
theorem State.sampled_of_pins (h : s.pins = p :: rest) :
    s.sampled = { s with pins := rest, now := p.now % 2 ^ s.cfg.tw, query := none } := by
  rw [State.sampled, State.nextSample_of_pins h, h, List.tail_cons]

end

/-! ### The query beside the ingest operation -/

/-- With `q_valid` = 0 the ingest operation finds the state just sampled (R60). -/
theorem State.ready_of_no_query {s : State} (h : s.nextSample.queryWord.getLsbD 34 = false) : s.ready = s.sampled := by
  rw [State.ready, h]
  rfl

/-- With `q_valid` = 1 the ingest operation finds the state `QUERY` leaves (R50). -/
theorem exec_query_sampled {s : State} (h : s.nextSample.queryWord.getLsbD 34 = true) :
    exec (.query (s.nextSample.queryWord.extractLsb' 0 34)) s.sampled = .next s.ready := by
  rw [State.ready, h]
  rfl

/-! ### The obligations -/

/-- Settles O39: a step is the presented operation on the ready state, which is the sampled state with the query, if there is
one, served on it. -/
theorem stepRunsTheSelectedOperation : Obligations.StepRunsTheSelectedOperation := by
  intro s p rest hp
  rw [step_eq, State.presented_of_pins hp, ← State.sampled_of_pins hp, ← State.nextSample_of_pins hp]
  constructor
  · intro hq
    rw [State.ready_of_no_query hq]
  · intro hq
    exact ⟨s.ready, exec_query_sampled hq, rfl⟩

/-- Settles O41: a step is one operation, and every operation completes. -/
theorem everyStepCompletes : Obligations.EveryStepCompletes := step_next

end Sys2Proof.Machine
end

section
/-! State: the invariant, the flags, the cache and the ports under one step, and that dead registers are never read (R20 to R33). -/

namespace Sys2Proof.Machine

/-! ### What a close and a frame leave alone -/

section
variable (c : Bool) (s : State)

@[simp] theorem State.closeIf_cfg : (s.closeIf c).cfg = s.cfg := by simp [State.closeIf_eq]
@[simp] theorem State.closeIf_buf : (s.closeIf c).buf = s.buf := by simp [State.closeIf_eq]
@[simp] theorem State.closeIf_cnt : (s.closeIf c).cnt = s.cnt := by simp [State.closeIf_eq]
@[simp] theorem State.closeIf_ovf : (s.closeIf c).ovf = s.ovf := by simp [State.closeIf_eq]
@[simp] theorem State.closeIf_cache : (s.closeIf c).cache = s.cache := by simp [State.closeIf_eq]
@[simp] theorem State.closeIf_out : (s.closeIf c).out = s.out := by simp [State.closeIf_eq]
@[simp] theorem State.closeIf_err : (s.closeIf c).err = s.err := by simp [State.closeIf_eq]

end

section
variable (s : State) (fb : FramingByte)

@[simp] theorem State.closeFrame_cfg : (s.closeFrame fb).cfg = s.cfg := by
  rcases s.closeFrame_cases fb with ⟨k, -, h⟩ | ⟨f, -, ⟨h, -⟩ | ⟨h, -⟩ | ⟨m, h, -⟩⟩ <;> rw [h]

/-- `FRM` never clears `OVF` (R23). -/
theorem State.closeFrame_ovf_of_ovf (ho : s.ovf = true) : (s.closeFrame fb).ovf = true := by
  rcases s.closeFrame_cases fb with ⟨k, -, h⟩ | ⟨f, -, ⟨h, -⟩ | ⟨h, -⟩ | ⟨m, h, -⟩⟩ <;> simp [h, ho]

/-- A pulse after `FRM` is the decoder's rejection (R31, R208). -/
theorem State.closeFrame_err_iff (he : s.err = none) (kind : DropKind) :
    (s.closeFrame fb).err = some kind ↔ decodeFrame s.buf s.cnt fb = .malformed kind := by
  rcases s.closeFrame_cases fb with ⟨k, hd, h⟩ | ⟨f, hd, ⟨h, -⟩ | ⟨h, -⟩ | ⟨m, h, -⟩⟩ <;> simp [h, hd, he]

/-- A record after `FRM` is that of a frame the decoder accepted (R30, R101). -/
theorem State.decodeFrame_ok_of_closeFrame_out (ho : (s.closeFrame fb).out ≠ none) :
    ∃ f, decodeFrame s.buf s.cnt fb = .ok f := by
  rcases s.closeFrame_cases fb with ⟨k, -, h⟩ | ⟨f, hd, -⟩
  · simp [h] at ho
  · exact ⟨f, hd⟩

end

/-! ### The buffer under one more byte -/

/-- A live register of the longer frame is the new one or was live before. -/
theorem lt_of_lt_cntNext {i : Nat} {n : Fin 17} (hi : i < (cntNext n).val) (hne : i ≠ n.val) : i < n.val := by
  simp only [cntNext] at hi
  omega

/-- A live register after `ACC` holds the byte just stored if it is the one `CNT` named, and its old byte otherwise (R100). -/
theorem State.bufRead_accumulate (s : State) (b : Byte) {i : Nat} (hi : i < (cntNext s.cnt).val)
    (hdepth : i < Config.bufDepth) :
    bufRead (s.accumulate b).buf i = if i = s.cnt.val then b else bufRead s.buf i := by
  rw [State.accumulate_buf]
  by_cases hnew : i = s.cnt.val
  · subst hnew
    have hroom : s.cnt.val < 15 := hdepth
    rw [if_pos hroom, if_pos rfl, bufRead_set_same _ _ _ hroom]
  · have hold := lt_of_lt_cntNext hi hnew
    rw [if_neg hnew]
    split
    · exact bufRead_set_other _ _ hnew
    · rfl

/-! ### The cache under writes -/

/-- A write takes no entry away. -/
theorem Cache.read_write_ne_none {c : Cache} {id : Ident} (key : Ident) (e : Entry) (h : c.read id ≠ none) :
    (c.write key e).read id ≠ none := by
  by_cases hk : id = key
  · simp [hk]
  · rwa [Cache.read_write_other c e hk]

/-- `FRM` takes no entry away (R26 (d)). -/
theorem State.closeFrame_read_ne_none {s : State} {id : Ident} (fb : FramingByte) (hr : s.cache.read id ≠ none) :
    (s.closeFrame fb).cache.read id ≠ none := by
  rcases s.closeFrame_cases fb with ⟨k, -, h⟩ | ⟨f, -, ⟨h, -⟩ | ⟨h, -⟩ | ⟨m, h, -⟩⟩ <;> rw [h]
  case inr.inr.inr => exact Cache.read_write_ne_none _ _ hr
  all_goals exact hr

/-! ### What a step does to the cache and to `OVF` -/

/-- A step other than `RESET` leaves the cache and `OVF` alone, or they are those `FRM` leaves. -/
theorem step_cache_ovf {s t : State} (h : step s = .next t) (hr : s.presented ≠ .reset) :
    (t.cache = s.cache ∧ t.ovf = s.ovf) ∨
      ∃ fb, t.cache = (s.ready.clearPulses.closeFrame fb).cache ∧ t.ovf = (s.ready.clearPulses.closeFrame fb).ovf := by
  rcases step_cases h with ⟨hp, -⟩ | ⟨-, -, rfl⟩ | ⟨-, c, ⟨-, -, rfl⟩ | ⟨-, -, rfl⟩ | ⟨v, -, rfl⟩ | ⟨fb, -, rfl⟩⟩
  · exact absurd hp hr
  · exact .inl ⟨rfl, rfl⟩
  · exact .inl ⟨rfl, rfl⟩
  · exact .inl (by simp [State.closeTransport_eq])
  · exact .inl (by simp)
  · exact .inr ⟨fb, by simp⟩

/-! ### Obligations about flags, entries and ports -/

/-- Settles O7: each field is written out in `State.reset`. -/
theorem resetStateAsTheTable : Obligations.ResetStateAsTheTable :=
  ⟨rfl, rfl, rfl, rfl, fun _ => rfl, rfl, rfl⟩

/-- Settles O44: none of the events of a step writes the parameters. -/
theorem parametersNeverChange : Obligations.ParametersNeverChange := by
  intro s t h
  rcases step_cases h with ⟨-, rfl⟩ | ⟨-, -, rfl⟩ | ⟨-, c, ⟨-, -, rfl⟩ | ⟨-, -, rfl⟩ | ⟨v, -, rfl⟩ | ⟨fb, -, rfl⟩⟩ <;>
    simp [State.closeTransport_eq]

/-- Settles O45: a halted core only ends its pulses, and `OVF` can only be raised by `FRM`. -/
theorem flagsAreSticky : Obligations.FlagsAreSticky := by
  intro s t h hr
  refine ⟨fun hh => ?_, fun ho => ?_⟩
  · rcases step_cases h with ⟨hp, -⟩ | ⟨-, -, rfl⟩ | ⟨hrun, -⟩
    · exact absurd hp hr
    · exact ⟨hh, rfl⟩
    · simp [hh] at hrun
  · rcases step_cache_ovf h hr with ⟨-, hovf⟩ | ⟨fb, -, hovf⟩
    · rw [hovf, ho]
    · rw [hovf]
      exact State.closeFrame_ovf_of_ovf _ fb ho

/-- Settles O47: the only thing a step other than `RESET` does to the cache is `FRM`'s write. -/
theorem entriesPersist : Obligations.EntriesPersist := by
  intro s t id h hr hid
  rcases step_cache_ovf h hr with ⟨hc, -⟩ | ⟨fb, hc, -⟩
  · rwa [hc]
  · rw [hc]
    exact State.closeFrame_read_ne_none fb hid

/-- Settles O43: every event begins by ending the pulses, and after that only `FRM` drives one. -/
theorem pulsesOnlyWhenAFrameEnds : Obligations.PulsesOnlyWhenAFrameEnds := by
  intro s t h hr
  constructor
  · intro hquiet
    rcases step_cases h with
      ⟨hp, -⟩ | ⟨-, -, rfl⟩ | ⟨hrun, c, ⟨-, -, rfl⟩ | ⟨-, -, rfl⟩ | ⟨v, -, rfl⟩ | ⟨fb, hp, -⟩⟩
    · exact absurd hp hr
    · exact ⟨rfl, rfl⟩
    · exact ⟨rfl, rfl⟩
    · simp [State.closeTransport_eq]
    · simp
    · rcases hquiet with hno | hhalt
      · exact absurd hp (by simp [hno c fb])
      · simp [hhalt] at hrun
  · intro c fb hp hrun
    have ht : ∃ c', t = (s.ready.clearPulses.closeFrame fb).closeIf c' := by
      rcases step_cases h with ⟨hp', -⟩ | ⟨-, hh, -⟩ | ⟨-, c', ⟨hp', -⟩ | ⟨hp', -⟩ | ⟨v, hp', -⟩ | ⟨fb', hp', rfl⟩⟩
      · exact absurd hp' hr
      · simp [hrun] at hh
      · simp [hp'] at hp
      · simp [hp'] at hp
      · rcases hp' with hp' | ⟨hp', -⟩ <;> simp [hp'] at hp
      · obtain rfl : fb' = fb := by
          rcases hp' with hp' | ⟨hp', -⟩ <;> simp [hp'] at hp <;> simp [hp]
        exact ⟨c', rfl⟩
    obtain ⟨c', rfl⟩ := ht
    simp only [State.closeIf_err, State.closeIf_out]
    exact ⟨State.closeFrame_err_iff _ fb rfl, State.decodeFrame_ok_of_closeFrame_out _ fb⟩

end Sys2Proof.Machine
end

section
/-! State: the invariant holds after reset and every step keeps it (R20, R26, R28, R30, R208). -/

namespace Sys2Proof.Machine

/-! ### Room in the cache -/

section
variable {c : Cache} {id : Ident} {p : Config.Params} (e : Entry)

/-- A write of an identifier that has an entry, or for which there is room, stays within `CACHE_ENTRIES` (R26 (e)). -/
theorem Cache.length_write_le {n : Nat} (hc : c.wf) (hp : p.cacheEntries = some n) (hn : c.length ≤ n)
    (hfit : c.read id ≠ none ∨ hasRoom p c = true) : (c.write id e).length ≤ n := by
  cases hr : c.read id with
  | none =>
    have hroom : c.length < n := by simpa [hr, hasRoom, hp] using hfit
    rw [Cache.length_write_new e hr]
    exact hroom
  | some x =>
    rw [Cache.length_write_old e hc hr]
    exact hn

/-- A full cache can only overwrite, so it stays full (R156). -/
theorem hasRoom_write_of_full (hc : c.wf) (hfull : hasRoom p c = false) (hfit : c.read id ≠ none ∨ hasRoom p c = true) :
    hasRoom p (c.write id e) = false := by
  have hne : c.read id ≠ none := by simpa [hfull] using hfit
  obtain ⟨x, hx⟩ := Option.ne_none_iff_exists'.mp hne
  simpa [hasRoom, Cache.length_write_old e hc hx] using hfull

end

/-! ### The record -/

/-- `DECODE` delivers at most `MAX_DATA` bytes (R5). -/
theorem decodeFrame_data_length {buf : Vector Byte 15} {n : Fin 17} {fb : FramingByte} {f : DecodedFrame}
    (h : decodeFrame buf n fb = .ok f) : f.data.length ≤ Config.maxData := by
  simp only [decodeFrame] at h
  split at h
  · cases h
  · cases h
    simp [Work.frame, Config.maxData]

/-- A record of at most 12 data bytes, with a mask as long, is laid out as R30 says. -/
theorem outRecord_wf {f : DecodedFrame} {m : Mask} {tw now : Nat} (hf : f.data.length ≤ Config.maxData)
    (hm : m.length = f.data.length) (hnow : now < 2 ^ tw) : (outRecord f m now).wf tw := by
  have hlen : (outRecord f m now).outLen.toNat = f.data.length := by
    simp only [outRecord, portLen, BitVec.toNat_ofNat, Config.maxData] at hf ⊢
    omega
  refine ⟨by rwa [hlen], hnow, by rw [hlen]; rfl, fun i hi => ?_⟩
  rw [hlen] at hi
  simp [outRecord, portData, portMask, hi, hm]

/-! ### Each event keeps the invariant -/

/-- Sampling the pins, serving the query and ending the pulses keep the invariant. -/
theorem State.Inv.ready {s : State} (h : s.Inv) : s.ready.clearPulses.Inv :=
  { h with
    nowInRange := Nat.mod_lt _ (Nat.two_pow_pos _)
    oneOutput := .inl rfl
    record := by simp }

theorem State.Inv.resetCore {s : State} (h : s.Inv) : s.resetCore.Inv :=
  { h with
    canonical := List.Pairwise.nil
    entries := by simp
    capacity := by simp
    overflow := by simp
    haltKind := by simp
    livePayload := by simp
    oneOutput := .inl rfl
    record := by simp }

/-- A fatal error sets `HALT` and a kind together (R210). -/
theorem State.Inv.haltWith {s : State} (h : s.Inv) {kind : FatalKind} (hk : kind ≠ .noFailure) : (s.haltWith kind).Inv :=
  { h with haltKind := by simp [hk] }

theorem State.Inv.closeIf {s : State} (h : s.Inv) (c : Bool) : (s.closeIf c).Inv := by
  simp only [State.closeIf, State.closeTransport]
  split
  · split
    · exact h
    · exact h.haltWith (by split <;> decide)
  · exact h

/-- Every live register of the longer frame is an old one or holds the byte just stored, and both have bit 7 clear
(R28 (b)). -/
theorem State.Inv.accumulate {s : State} (h : s.Inv) (v : BitVec 7) : (s.accumulate (payloadByte v)).Inv := by
  refine { h with livePayload := fun i hi hdepth => ?_ }
  rw [State.bufRead_accumulate s _ hi hdepth]
  split
  case isTrue => exact payloadByte_getLsbD_seven v
  case isFalse hne => exact h.livePayload i (lt_of_lt_cntNext hi hne) hdepth

theorem State.Inv.closeFrame {s : State} (h : s.Inv) (fb : FramingByte) (he : s.err = none) : (s.closeFrame fb).Inv := by
  have hlive : ∀ i, i < (0 : Fin 17).val → i < Config.bufDepth → (bufRead s.buf i).getLsbD 7 = false := by simp
  rcases s.closeFrame_cases fb with ⟨k, -, ht⟩ | ⟨f, hd, ⟨ht, -⟩ | ⟨ht, -, hfull⟩ | ⟨m, ht, hm, hfit⟩⟩ <;> rw [ht]
  · exact { h with livePayload := hlive, oneOutput := .inl rfl, record := by simp, frameOver := ⟨rfl, rfl, rfl⟩ }
  · exact { h with livePayload := hlive, frameOver := ⟨rfl, rfl, rfl⟩ }
  · exact { h with
      overflow := fun _ => hfull
      livePayload := hlive
      oneOutput := .inr he
      record := by
        rintro _ ⟨⟩
        exact outRecord_wf (decodeFrame_data_length hd) (by simp [allTrue]) h.nowInRange
      frameOver := ⟨rfl, rfl, rfl⟩ }
  · have hlen := decodeFrame_data_length hd
    exact { h with
      canonical := Cache.write_wf _ _ h.canonical
      entries := fun p hp => (Cache.mem_write hp).elim (fun hp => hp ▸ ⟨hm, hlen, h.nowInRange⟩) (h.entries p)
      capacity := fun n hn => Cache.length_write_le _ h.canonical hn (h.capacity n hn) hfit
      overflow := fun ho => hasRoom_write_of_full _ h.canonical (h.overflow ho) hfit
      livePayload := hlive
      oneOutput := .inr he
      record := by
        rintro _ ⟨⟩
        exact outRecord_wf hlen hm h.nowInRange
      frameOver := ⟨rfl, rfl, rfl⟩ }

/-! ### The obligations -/

/-- Settles O53: the reset state has an empty cache, `CNT` = 0 and no outputs. -/
theorem invariantAtReset : Obligations.InvariantAtReset where
  params := by decide
  canonical := List.Pairwise.nil
  entries := by simp [State.reset]
  capacity := by simp [State.reset]
  overflow := by simp [State.reset]
  haltKind := by simp [State.reset]
  nowInRange := by decide
  livePayload := by simp [State.reset]
  oneOutput := .inl rfl
  record := by simp [State.reset]
  frameOver := ⟨rfl, rfl, rfl⟩

/-- Settles O54: every event of a step keeps the invariant. -/
theorem invariantKeptByEveryStep : Obligations.InvariantKeptByEveryStep := by
  intro s t hs h
  have hready := hs.ready
  rcases step_cases h with ⟨-, rfl⟩ | ⟨-, -, rfl⟩ | ⟨-, c, ⟨-, -, rfl⟩ | ⟨-, -, rfl⟩ | ⟨v, -, rfl⟩ | ⟨fb, -, rfl⟩⟩
  · exact hready.resetCore
  · exact hready
  · exact hready
  · exact hready.closeIf true
  · exact (hready.accumulate v).closeIf c
  · exact (hready.closeFrame fb rfl).closeIf c

end Sys2Proof.Machine
end

section
/-! State: nothing depends on a dead buffer register (R21, R132). -/

namespace Sys2Proof.Machine

/-! ### The decoder reads live registers only -/

/-- `DECODE` of buffers that agree on the live registers is the same: a frame it reads at all has `CNT` = `tl` bytes (R132). -/
theorem decodeFrame_congr {buf buf' : Vector Byte 15} {n : Fin 17} (fb : FramingByte)
    (h : ∀ i, i < n.val → i < Config.bufDepth → bufRead buf' i = bufRead buf i) :
    decodeFrame buf' n fb = decodeFrame buf n fb := by
  rw [decodeFrame_eq_refDecode, decodeFrame_eq_refDecode]
  exact refDecode_congr fb fun hn i hi => h i (hn ▸ hi) (Nat.lt_of_lt_of_le hi fb.tl_le)

/-! ### Each event keeps the agreement -/

namespace State.sameButDeadBytes

variable {s s' : State}

/-- The second state is the first with another buffer, alike on the live registers. -/
theorem exists_buf (h : s.sameButDeadBytes s') :
    ∃ buf, s' = { s with buf := buf } ∧ ∀ i, i < s.cnt.val → i < Config.bufDepth → bufRead buf i = bufRead s.buf i :=
  ⟨s'.buf, h⟩

/-- The two states present the same operation. -/
theorem presented (h : s.sameButDeadBytes s') : s'.presented = s.presented := by
  obtain ⟨buf, rfl, -⟩ := h.exists_buf
  rfl

theorem ready (h : s.sameButDeadBytes s') : s.ready.sameButDeadBytes s'.ready := by
  obtain ⟨buf, rfl, hlive⟩ := h.exists_buf
  exact ⟨rfl, hlive⟩

theorem clearPulses (h : s.sameButDeadBytes s') : s.clearPulses.sameButDeadBytes s'.clearPulses := by
  obtain ⟨buf, rfl, hlive⟩ := h.exists_buf
  exact ⟨rfl, hlive⟩

/-- After `RESET` no register is live. -/
theorem resetCore (h : s.sameButDeadBytes s') : s.resetCore.sameButDeadBytes s'.resetCore := by
  obtain ⟨buf, rfl, -⟩ := h.exists_buf
  exact ⟨rfl, by simp⟩

theorem closeIf (h : s.sameButDeadBytes s') (c : Bool) : (s.closeIf c).sameButDeadBytes (s'.closeIf c) := by
  obtain ⟨buf, rfl, hlive⟩ := h.exists_buf
  exact ⟨by simp only [State.closeIf_eq], by simpa using hlive⟩

/-- The register that `ACC` makes live holds the same byte in both. -/
theorem accumulate (h : s.sameButDeadBytes s') (b : Byte) : (s.accumulate b).sameButDeadBytes (s'.accumulate b) := by
  obtain ⟨buf, rfl, hlive⟩ := h.exists_buf
  refine ⟨rfl, fun i hi hdepth => ?_⟩
  rw [State.bufRead_accumulate s b hi hdepth, State.bufRead_accumulate { s with buf := buf } b hi hdepth]
  split
  case isTrue => rfl
  case isFalse hne => exact hlive i (lt_of_lt_cntNext hi hne) hdepth

/-- `FRM` decodes both alike and then leaves no register live. -/
theorem closeFrame (h : s.sameButDeadBytes s') (fb : FramingByte) :
    (s.closeFrame fb).sameButDeadBytes (s'.closeFrame fb) := by
  obtain ⟨buf, rfl, hlive⟩ := h.exists_buf
  have hsame := decodeFrame_congr fb hlive
  cases hd : decodeFrame s.buf s.cnt fb with
  | malformed kind =>
    rw [State.closeFrame_malformed hd, State.closeFrame_malformed (hsame.trans hd)]
    exact ⟨rfl, by simp⟩
  | ok f =>
    rw [State.closeFrame_ok hd, State.closeFrame_ok (hsame.trans hd)]
    exact ⟨rfl, by simp⟩

/-- An event keeps the agreement when its effect on a running core does; a halted core ignores it. -/
theorem event (h : s.sameButDeadBytes s') {op : State → State}
    (hop : ∀ {u u' : State}, u.sameButDeadBytes u' → (op u).sameButDeadBytes (op u')) :
    (s.event op).sameButDeadBytes (s'.event op) := by
  have hhalt : s'.halt = s.halt := by
    obtain ⟨buf, rfl, -⟩ := h.exists_buf
    rfl
  rw [State.event, State.event, hhalt]
  split
  · exact h.clearPulses
  · exact hop h.clearPulses

end State.sameButDeadBytes

/-- Settles O52: both states present the same operation, and every operation that can be presented keeps the agreement. -/
theorem deadRegistersAreNeverRead : Obligations.DeadRegistersAreNeverRead := by
  intro s s' h
  have hr := h.ready
  rw [step_eq, step_eq, h.presented]
  rcases s.presented_cases with hp | hp | hp | ⟨c, v, hp⟩ | ⟨c, fb, hp⟩ | ⟨v, hp⟩ | ⟨fb, hp⟩ <;> rw [hp]
  · exact ⟨_, _, rfl, rfl, hr.resetCore⟩
  · exact ⟨_, _, rfl, rfl, hr.event id⟩
  · exact ⟨_, _, rfl, rfl, hr.event fun hu => hu.closeIf true⟩
  · exact ⟨_, _, rfl, rfl, (hr.event fun hu => hu.accumulate (payloadByte v)).closeIf c⟩
  · exact ⟨_, _, rfl, rfl, (hr.event fun hu => hu.closeFrame fb).closeIf c⟩
  · exact ⟨_, _, rfl, rfl, hr.event fun hu => hu.accumulate (payloadByte v)⟩
  · exact ⟨_, _, rfl, rfl, hr.event fun hu => hu.closeFrame fb⟩

end Sys2Proof.Machine
end

section
/-! Memory: what a step leaves alone beside its own subject, the query port (R50) and the other identifiers' entries (R45). -/

namespace Sys2Proof.Machine

/-! ### The query port beside the ingest operation -/

/-- The same state with `a` on the query port. -/
def State.withQuery (a : Option QueryAnswer) (s : State) : State := { s with query := a }

@[simp] theorem State.withQuery_halt (a : Option QueryAnswer) (s : State) : (s.withQuery a).halt = s.halt := rfl
@[simp] theorem State.withQuery_query (a : Option QueryAnswer) (s : State) : (s.withQuery a).query = a := rfl

/-- The operation neither reads nor drives the query port: whatever stands there, it does the same beside it. -/
def KeepsQueryPort (op : State → State) : Prop := ∀ a s, op (s.withQuery a) = (op s).withQuery a

namespace KeepsQueryPort

/-- What stood on the query port before the operation stands there after it. -/
theorem query_eq {op : State → State} (h : KeepsQueryPort op) (s : State) : (op s).query = s.query := by
  have hs : op s = (op s).withQuery s.query := h s.query s
  rw [hs, State.withQuery_query]

theorem comp {f g : State → State} (hf : KeepsQueryPort f) (hg : KeepsQueryPort g) :
    KeepsQueryPort fun s => f (g s) :=
  fun a s => (congrArg f (hg a s)).trans (hf a (g s))

theorem nop : KeepsQueryPort id := fun _ _ => rfl

theorem resetCore : KeepsQueryPort State.resetCore := fun _ _ => rfl

theorem accumulate (b : Byte) : KeepsQueryPort (State.accumulate b) := fun _ _ => rfl

theorem closeIf (c : Bool) : KeepsQueryPort (State.closeIf c) := fun a s => by
  rw [State.closeIf_eq, State.closeIf_eq]
  rfl

/-- `FRM` decodes, observes and emits from fields other than the query port. -/
theorem closeFrame (fb : FramingByte) : KeepsQueryPort (State.closeFrame fb) := fun a s => by
  cases hd : decodeFrame s.buf s.cnt fb with
  | malformed kind =>
    rw [State.closeFrame_malformed hd]
    exact State.closeFrame_malformed hd
  | ok f =>
    rw [State.closeFrame_ok hd]
    exact State.closeFrame_ok hd

/-- An event keeps the port when its effect on a running core does; a halted core ignores it. -/
theorem event {op : State → State} (h : KeepsQueryPort op) : KeepsQueryPort (State.event op) := fun a s => by
  rw [State.event, State.event, State.withQuery_halt]
  split
  · rfl
  · exact h a s.clearPulses

end KeepsQueryPort

/-- Whatever the ingest pins select is a state update that keeps the query port. -/
theorem State.exec_presented_keepsQueryPort (s : State) :
    ∃ op, KeepsQueryPort op ∧ ∀ u, exec s.presented u = .next (op u) := by
  rcases s.presented_cases with hp | hp | hp | ⟨c, v, hp⟩ | ⟨c, fb, hp⟩ | ⟨v, hp⟩ | ⟨fb, hp⟩ <;> rw [hp]
  · exact ⟨_, .resetCore, fun _ => rfl⟩
  · exact ⟨_, .event .nop, fun _ => rfl⟩
  · exact ⟨_, .event (.closeIf true), fun _ => rfl⟩
  · exact ⟨_, .comp (.closeIf c) (.event (.accumulate _)), fun _ => rfl⟩
  · exact ⟨_, .comp (.closeIf c) (.event (.closeFrame fb)), fun _ => rfl⟩
  · exact ⟨_, .event (.accumulate _), fun _ => rfl⟩
  · exact ⟨_, .event (.closeFrame fb), fun _ => rfl⟩

/-- With `q_valid` = 0 the ingest operation finds nothing on the query port (R60). -/
theorem State.ready_query_of_no_query {s : State} (h : s.nextSample.queryWord.getLsbD 34 = false) :
    s.ready.query = none := by
  rw [State.ready_of_no_query h, State.sampled_query]

/-- The ready state of a sample with a query is that of the same sample without it, with the answer on the query port; the
answer is that of the state before the step, but for `now` (R50). -/
theorem State.ready_of_query {s : State} {p : PinSample} {rest : List PinSample} {q : Ident}
    (h : s.pins = { p with queryWord := 1#1 ++ q } :: rest) :
    s.ready = ({ s with pins := { p with queryWord := 0#35 } :: rest } : State).ready.withQuery
      (some (({ s with now := p.now % 2 ^ s.cfg.tw } : State).answer q)) := by
  have hvalid : (1#1 ++ q).getLsbD 34 = true := by
    rw [BitVec.getLsbD_append]
    rfl
  have hid : (1#1 ++ q).extractLsb' 0 34 = q := BitVec.extractLsb'_append_eq_right
  rw [State.ready, State.nextSample_of_pins h, State.sampled_of_pins h, if_pos hvalid, hid]
  rfl

/-- Two steps that perform the same operation on ready states alike but for the query port end alike but for that port. -/
theorem step_of_ready_withQuery {s u : State} {a : Option QueryAnswer} (hr : s.ready = u.ready.withQuery a)
    (hp : u.presented = s.presented) :
    ∃ t, step u = .next t ∧ t.query = u.ready.query ∧ step s = .next (t.withQuery a) := by
  obtain ⟨op, hkeep, hexec⟩ := s.exec_presented_keepsQueryPort
  refine ⟨op u.ready, ?_, hkeep.query_eq _, ?_⟩
  · rw [step_eq, hp, hexec]
  · rw [step_eq, hexec, hr, hkeep]

/-- Settles O42: without the query the step performs the same operation on the same ready state with a blank query port, and no
ingest operation touches that port. -/
theorem queryReadsBeforeTheIngest : Obligations.QueryReadsBeforeTheIngest := by
  intro s p rest q hpins
  obtain ⟨t, hplain, hblank, hquery⟩ :=
    step_of_ready_withQuery (State.ready_of_query hpins) (State.presented_of_pins hpins).symm
  exact ⟨t, hplain, hblank.trans (State.ready_query_of_no_query BitVec.getLsbD_zero), hquery⟩

/-! ### The other identifiers' entries -/

/-- `FRM` leaves the entry of every identifier but the decoded frame's as it was (R45). -/
theorem State.closeFrame_read_other {s : State} {fb : FramingByte} {id : Ident}
    (hne : ∀ f, decodeFrame s.buf s.cnt fb = .ok f → f.id ≠ id) : (s.closeFrame fb).cache.read id = s.cache.read id := by
  rcases s.closeFrame_cases fb with ⟨k, -, h⟩ | ⟨f, hd, ⟨h, -⟩ | ⟨h, -⟩ | ⟨m, h, -⟩⟩ <;> rw [h]
  case inr.inr.inr => exact Cache.read_write_other _ _ (hne f hd).symm

/-- Settles O48: of the events of a step other than `RESET` only `FRM` writes the cache, and only under the identifier it
decoded. -/
theorem onlyTheDecodedIdentifierChanges : Obligations.OnlyTheDecodedIdentifierChanges := by
  intro s t id h hr hne
  rcases step_cases h with
    ⟨hp, -⟩ | ⟨-, -, rfl⟩ | ⟨-, c, ⟨-, -, rfl⟩ | ⟨-, -, rfl⟩ | ⟨v, -, rfl⟩ | ⟨fb, hp, rfl⟩⟩
  · exact absurd hp hr
  · rfl
  · rfl
  · simp [State.closeTransport_eq]
  · simp
  · rw [State.closeIf_cache]
    exact State.closeFrame_read_other fun f => hne c fb f (hp.imp_right And.left)

end Sys2Proof.Machine
end

section
/-! Encoding: the step word's rows, the wire byte's classes and the byte roles (R60 to R67), the error kinds' numbers (R80), and the
carry bits nothing reads (R72). -/

namespace Sys2Proof

/-! ### Words under a mask -/

/-- Where the mask looks, a word that has the pattern has the pattern's bit. -/
theorem getLsbD_of_and_eq {n : Nat} {w mask pat : BitVec n} (h : w &&& mask = pat) (i : Nat) (hi : mask.getLsbD i = true) :
    w.getLsbD i = pat.getLsbD i := by
  rw [← h, BitVec.getLsbD_and, hi, Bool.and_true]

/-! ### The step word (R60): one equation per row -/

section
variable {w : StepWord}

theorem decodeStep_reset (hrst : w.getLsbD 10 = true) : decodeStep w = .reset := if_pos hrst

theorem decodeStep_nop (hrst : w.getLsbD 10 = false) (hclose : w.getLsbD 9 = false) (hvalid : w.getLsbD 8 = false) :
    decodeStep w = .nop := by
  rw [decodeStep, hrst, hvalid, hclose]
  rfl

theorem decodeStep_close (hrst : w.getLsbD 10 = false) (hclose : w.getLsbD 9 = true) (hvalid : w.getLsbD 8 = false) :
    decodeStep w = .close := by
  rw [decodeStep, hrst, hvalid, hclose]
  rfl

theorem decodeStep_acc (hrst : w.getLsbD 10 = false) (hvalid : w.getLsbD 8 = true) (hclass : w.getLsbD 7 = false) :
    decodeStep w = .acc (w.getLsbD 9) (w.extractLsb' 0 7) := by
  rw [decodeStep, hrst, hvalid, hclass]
  rfl

theorem decodeStep_frm (hrst : w.getLsbD 10 = false) (hvalid : w.getLsbD 8 = true) (hclass : w.getLsbD 7 = true) :
    decodeStep w = .frm (w.getLsbD 9) (framingFields (w.extractLsb' 0 8)) := by
  rw [decodeStep, hrst, hvalid, hclass]
  rfl

end

/-- Bits taken out of the low `m` bits are bits of the word. -/
theorem extractLsb'_of_low {n m : Nat} (w : BitVec n) {i k : Nat} (h : i + k ≤ m) :
    (w.extractLsb' 0 m).extractLsb' i k = w.extractLsb' i k := by
  apply BitVec.eq_of_getLsbD_eq
  intro j hj
  have hlow : i + j < m := by omega
  simp [hj, hlow]

/-- The fields of the framing byte stand in the step word at their own positions, `in_byte` being its low 8 bits (R60, R63). -/
theorem framingFields_inByte (w : StepWord) :
    framingFields (w.extractLsb' 0 8) = { k := w.getLsbD 6, ll := w.extractLsb' 4 2, nnnn := w.extractLsb' 0 4 } := by
  have hk : (w.extractLsb' 0 8).getLsbD 6 = w.getLsbD 6 := by simp
  rw [framingFields, hk, extractLsb'_of_low w (by omega), extractLsb'_of_low w (by omega)]

/-! ### The wire byte (R61) -/

/-- A framing byte is its marker and its fields. -/
theorem toByte_framingFields {b : Byte} (hmarker : b.getLsbD 7 = true) : (framingFields b).toByte = b := by
  revert b
  decide

theorem decodeWire_framing {b : Byte} (hmarker : b.getLsbD 7 = true) : decodeWire b = .framing (framingFields b) :=
  if_pos hmarker

theorem decodeWire_payload {b : Byte} (hmarker : b.getLsbD 7 = false) : decodeWire b = .payload (b.extractLsb' 0 7) := by
  rw [decodeWire, hmarker]
  rfl

/-! ### The roles by position (R62) -/

section
variable {fb : FramingByte} {p j : Nat}

theorem roleAt_first (fb : FramingByte) : roleAt fb 0 = .id0 := rfl

theorem roleAt_identifier (hp : 1 ≤ p) (hidl : p < fb.idl) : roleAt fb p = .idk p := by
  rw [roleAt, if_neg (Nat.ne_of_gt hp), if_pos hidl]

/-- The data begins after the identifier and ends before the carry byte. -/
theorem roleAt_data (hj : j < fb.dn) : roleAt fb (fb.idl + j) = .datj j := by
  have hidl := fb.idl_bounds
  rw [FramingByte.dn] at hj
  rw [roleAt, if_neg (by omega), if_neg (by omega), if_neg (by omega), Nat.add_sub_cancel_left]

theorem roleAt_last (hroom : fb.idl + 1 ≤ fb.tl) : roleAt fb (fb.tl - 1) = .cry := by
  have hidl := fb.idl_bounds
  rw [roleAt, if_neg (by omega), if_neg (by omega), if_pos (by omega)]

end

end Sys2Proof

namespace Sys2Proof.Machine

/-! ### The decoder's working values -/

/-- `DATj` in the terms of R127: bit 7 of the data byte is the carry's top bit. -/
theorem Work.takeDatj_eq (j : Nat) (d : BitVec 7) (w : Work) :
    w.takeDatj j d =
      { w with
        data := w.data.setIfInBounds j (BitVec.ofBool (w.carry.getLsbD 7) ++ d)
        carry := w.carry <<< 1 } := by
  rw [Work.takeDatj, dataByte_eq_append]

/-! ### What the closed forms read -/

/-- The identifier is made of the identifier bytes only (R70). -/
theorem refIdent_congr {b b' : Nat → Byte} {idl : Nat} (hidl : 2 ≤ idl ∧ idl ≤ 5) (h : ∀ p, p < idl → b' p = b p) :
    refIdent b' idl = refIdent b idl := by
  have hcases : idl = 2 ∨ idl = 3 ∨ idl = 4 ∨ idl = 5 := by omega
  rcases hcases with rfl | rfl | rfl | rfl <;> simp [refIdent, h]

section
variable {b b' : Nat → Byte} {fb fb' : FramingByte}

/-- Data byte `j` is made of its own payload byte and of carry bit `8 - dn + j`, if there is one (R71). -/
theorem refDataByte_congr {j : Nat} (hidl : fb'.idl = fb.idl) (hdn : fb'.dn = fb.dn)
    (hbyte : b' (fb.idl + j) = b (fb.idl + j))
    (hcarry : fb.dn ≤ 8 + j →
      (refCarry b' fb').getLsbD (8 + j - fb.dn) = (refCarry b fb).getLsbD (8 + j - fb.dn)) :
    refDataByte b' fb' j = refDataByte b fb j := by
  rw [refDataByte, refDataByte, hidl, hdn, hbyte]
  by_cases hbit : fb.dn ≤ 8 + j
  · rw [hcarry hbit]
  · simp [hbit]

/-- The closed form reads of the last payload byte and of the framing byte's bit 6 only the carry bits that data bytes take:
data byte `j` < `dn` takes bit `8 - dn + j`, so those from `8 - dn` on (R72 (a)). -/
theorem refDecode_congr_usedCarry (n : Nat) (hll : fb'.ll = fb.ll) (hnnnn : fb'.nnnn = fb.nnnn)
    (hbytes : ∀ p, p + 1 < fb.tl → b' p = b p)
    (hcarry : ∀ i, i < 8 → 8 ≤ i + fb.dn → (refCarry b' fb').getLsbD i = (refCarry b fb).getLsbD i)
    (hroom : fb.idl + 1 ≤ fb.tl) : refDecode n b' fb' = refDecode n b fb := by
  have htl : fb'.tl = fb.tl := by rw [FramingByte.tl, hnnnn, FramingByte.tl]
  have hidl : fb'.idl = fb.idl := by rw [FramingByte.idl, hll, FramingByte.idl]
  have hdn : fb'.dn = fb.dn := by rw [FramingByte.dn, htl, hidl, FramingByte.dn]
  have hbounds := fb.idl_bounds
  have hid : refIdent b' fb.idl = refIdent b fb.idl := refIdent_congr hbounds fun p hp => hbytes p (by omega)
  have hdata : (List.range fb.dn).map (refDataByte b' fb') = (List.range fb.dn).map (refDataByte b fb) := by
    refine List.map_congr_left fun j hj => ?_
    have hj : j < fb.dn := List.mem_range.mp hj
    have hlast : fb.idl + j + 1 < fb.tl := by
      rw [FramingByte.dn] at hj
      omega
    exact refDataByte_congr hidl hdn (hbytes _ hlast) fun _ => hcarry _ (by omega) (by omega)
  rw [refDecode, refDecode, htl, hidl, hdn, hid, hdata, hbytes 0 (by omega)]

end

/-! ### The obligations -/

/-- Settles O21: `DECODE` is the closed form, and that reads only the carry bits data bytes take. -/
theorem unusedCarryBitsIgnored : Obligations.UnusedCarryBitsIgnored := by
  intro buf buf' n fb fb' hll hnnnn hbytes hcarry hroom
  rw [decodeFrame_eq_refDecode, decodeFrame_eq_refDecode]
  exact refDecode_congr_usedCarry n.val hll hnnnn hbytes hcarry hroom

/-- Settles O1: each row's mask looks at the bits that its equation of `decodeStep` asks for. -/
theorem stepWordSelectsByTable : Obligations.StepWordSelectsByTable := by
  intro w
  refine ⟨fun h => ?_, fun h => ?_, fun h => ?_, fun h => ?_, fun h => ?_⟩ <;> have bit := getLsbD_of_and_eq h
  · exact decodeStep_reset (bit 10 rfl)
  · exact decodeStep_nop (bit 10 rfl) (bit 9 rfl) (bit 8 rfl)
  · exact decodeStep_acc (bit 10 rfl) (bit 8 rfl) (bit 7 rfl)
  · rw [decodeStep_frm (bit 10 rfl) (bit 8 rfl) (bit 7 rfl), framingFields_inByte]
  · exact decodeStep_close (bit 10 rfl) (bit 9 rfl) (bit 8 rfl)

/-- Settles O4: both classes keep the seven bits below the marker. -/
theorem wireByteClassIsBitSeven : Obligations.WireByteClassIsBitSeven := fun b =>
  ⟨fun hmarker => ⟨framingFields b, decodeWire_framing hmarker, toByte_framingFields hmarker⟩,
    fun hmarker => ⟨b.extractLsb' 0 7, decodeWire_payload hmarker, payloadByte_low7 b hmarker⟩⟩

/-- Settles O5: one lemma about `roleAt` for each of the four kinds of position. -/
theorem rolesGoByPosition : Obligations.RolesGoByPosition := by
  intro fb p hroom _
  refine ⟨?_, roleAt_identifier, ?_, ?_⟩
  · rintro rfl
    exact roleAt_first fb
  · rintro j rfl hj
    exact roleAt_data hj
  · rintro rfl
    exact roleAt_last hroom

/-- Settles O6: the two ports show the codes of `HKIND` and of the drop. -/
theorem errorKindCodes : Obligations.ErrorKindCodes := by
  constructor <;> intro s
  · have hport : s.statusPort.stHkind = s.hkind.code := rfl
    rw [hport]
    refine ⟨fun h => ?_, fun h => ?_, fun h => ?_⟩ <;> rw [h] <;> rfl
  · rw [State.errKind]
    refine ⟨fun h => ?_, fun h => ?_, fun h => ?_⟩ <;> rw [h] <;> rfl

/-- Settles O17: each role is one update of the working values; only `DATj` is written differently in R127. -/
theorem byteRolesContribute : Obligations.ByteRolesContribute := by
  intro s
  refine ⟨fun _ _ => rfl, fun _ _ => rfl, fun _ => rfl, fun j d => ?_⟩
  rw [← Work.takeDatj_eq]
  rfl

end Sys2Proof.Machine
end

section
/-! Framer: the frame the test encoder writes is, read by the closed forms, what was encoded (R78, R133). -/

namespace Sys2Proof

/-! ### Words put together from their parts -/

/-- Two neighbouring fields of a word, each in its place, are one field. -/
theorem extractLsb'_or_shiftLeft {w : Nat} (x : BitVec w) (n m : Nat) :
    (x.extractLsb' 0 n).setWidth w ||| (x.extractLsb' n m).setWidth w <<< n = (x.extractLsb' 0 (n + m)).setWidth w := by
  apply BitVec.eq_of_getLsbD_eq
  intro i hi
  by_cases hlow : i < n
  · have hsum : i < n + m := by omega
    simp [hi, hlow, hsum]
  · have hback : n + (i - n) = i := by omega
    have hfield : i - n < m ↔ i < n + m := by omega
    simp [hi, hlow, hback, hfield]

/-- A word below 2^`n` is its low `n` bits. -/
theorem setWidth_extractLsb'_of_lt {w n : Nat} {x : BitVec w} (h : x.toNat < 2 ^ n) :
    (x.extractLsb' 0 n).setWidth w = x := by
  apply BitVec.eq_of_toNat_eq
  simp [Nat.mod_eq_of_lt h]

/-- A byte is its bit 7 and its low 7 bits. -/
theorem ofBool_append_low7 (b : Byte) : BitVec.ofBool (b.getLsbD 7) ++ b.extractLsb' 0 7 = b := by
  revert b
  decide

namespace EncArgs

/-! ### The arguments of the encoder -/

/-- The `require` lines of `ENC`, one by one (R78). -/
theorem wf_iff (a : EncArgs) :
    a.wf = true ↔ (2 ≤ a.idl ∧ a.idl ≤ 5) ∧ a.id.toNat < 2 ^ (6 + 7 * (a.idl - 1)) ∧ a.idl + a.data.length + 1 ≤ 15 ∧
      ∀ d ∈ a.data.take (a.data.length - Config.conformingData), d.msb = false := by
  simp only [wf, Bool.and_eq_true, decide_eq_true_eq, List.all_eq_true, Bool.not_eq_true', and_assoc]

/-- Bit 7 is clear in the data bytes that no carry bit reaches (R78). -/
theorem data_bit_seven_of_uncarried {a : EncArgs} (h : a.wf = true) {j : Nat} (hj : j < a.data.length)
    (hfar : j + 8 < a.data.length) : a.data[j].getLsbD 7 = false := by
  obtain ⟨-, -, -, hclear⟩ := a.wf_iff.mp h
  have hmem : a.data[j] ∈ a.data.take (a.data.length - Config.conformingData) := by
    rw [List.mem_take_iff_getElem]
    exact ⟨j, by simp only [Config.conformingData]; omega, rfl⟩
  simpa [BitVec.msb_eq_getLsbD_last] using hclear _ hmem

/-! ### The payload byte by byte -/

section
variable (a : EncArgs)

theorem payload_getD_zero : a.payload.getD 0 0#8 = 0#1 ++ BitVec.ofBool a.ext ++ a.id.extractLsb' 0 6 := rfl

theorem payload_getD_identifier {k : Nat} (h1 : 1 ≤ k) (hk : k < a.idl) : a.payload.getD k 0#8 = encIdByte a.id k := by
  obtain ⟨k, rfl⟩ := Nat.exists_eq_add_of_le' h1
  have hlt : k < a.idl - 1 := by omega
  have hpos : 1 + k = k + 1 := Nat.add_comm _ _
  simp [payload, List.getElem?_append, hlt, hpos]

theorem payload_getD_data {j : Nat} (hidl : 1 ≤ a.idl) (hj : j < a.data.length) :
    a.payload.getD (a.idl + j) 0#8 = payloadByte (a.data[j].extractLsb' 0 7) := by
  obtain ⟨n, hn⟩ := Nat.exists_eq_add_of_le' hidl
  have hpos : n + 1 + j = (n + j) + 1 := by omega
  simp [payload, List.getElem?_append, hn, hpos, hj]

theorem payload_getD_carry (hidl : 1 ≤ a.idl) :
    a.payload.getD (a.idl + a.data.length) 0#8 = payloadByte ((encCarry a.data).extractLsb' 0 7) := by
  obtain ⟨n, hn⟩ := Nat.exists_eq_add_of_le' hidl
  have hpos : n + 1 + a.data.length = (n + a.data.length) + 1 := by omega
  simp [payload, hn, hpos]

end

end EncArgs

end Sys2Proof

namespace Sys2Proof.Machine

/-! ### The closed forms on an encoded frame -/

section
variable {a : EncArgs} (h : a.wf = true)
include h

/-- R70 on the identifier bytes of `ENC`: each byte puts 7 more bits of the identifier in place. -/
theorem refIdent_payload : refIdent (a.payload.getD · 0#8) a.idl = a.id := by
  obtain ⟨⟨hlow, hhigh⟩, hid, -, -⟩ := a.wf_iff.mp h
  have hfirst : (a.payload.getD 0 0#8).extractLsb' 0 6 = a.id.extractLsb' 0 6 := by
    rw [a.payload_getD_zero, extractLsb'_append_low]
  have hnext : ∀ k, 1 ≤ k → k < a.idl →
      (a.payload.getD k 0#8).extractLsb' 0 7 = a.id.extractLsb' (6 + 7 * (k - 1)) 7 := fun k h1 hk => by
    rw [a.payload_getD_identifier h1 hk, encIdByte, payloadByte_low]
  have hcases : a.idl = 2 ∨ a.idl = 3 ∨ a.idl = 4 ∨ a.idl = 5 := by omega
  rw [← setWidth_extractLsb'_of_lt hid]
  rcases hcases with hidl | hidl | hidl | hidl <;>
    rw [hidl] at hnext ⊢ <;>
    simp [-List.getD_eq_getElem?_getD, refIdent, hfirst, hnext, extractLsb'_or_shiftLeft]

/-- R71: the carry byte and the framing byte's bit 6 hold the carry of `ENC`. -/
theorem refCarry_payload : refCarry (a.payload.getD · 0#8) a.framing = encCarry a.data := by
  obtain ⟨⟨hidl, -⟩, -, -, -⟩ := a.wf_iff.mp h
  have hlast : a.framing.tl - 1 = a.idl + a.data.length := by
    rw [(a.framing_fields h).1, a.payload_length h, Nat.add_sub_cancel]
  rw [refCarry, hlast, a.payload_getD_carry (by omega), payloadByte_low]
  exact ofBool_append_low7 _

/-- R71: a data byte gets back the bit 7 that the encoder put in the carry, or that was clear. -/
theorem refDataByte_payload {j : Nat} (hj : j < a.data.length) :
    refDataByte (a.payload.getD · 0#8) a.framing j = a.data[j] := by
  obtain ⟨⟨hidl, -⟩, -, -, -⟩ := a.wf_iff.mp h
  obtain ⟨-, hfidl, hdn⟩ := a.framing_fields h
  have hbit : (decide (a.data.length ≤ 8 + j) && (encCarry a.data).getLsbD (8 + j - a.data.length)) =
      a.data[j].getLsbD 7 := by
    by_cases hcarried : a.data.length ≤ 8 + j
    · have hback : 8 + j - a.data.length + a.data.length = 8 + j := Nat.sub_add_cancel hcarried
      rw [encCarry_bit _ _ (by omega), hback]
      simp [hcarried, hj]
    · rw [EncArgs.data_bit_seven_of_uncarried h hj (by omega)]
      simp [hcarried]
  rw [refDataByte, refCarry_payload h, hdn, hfidl, hbit, a.payload_getD_data (by omega) hj, payloadByte_low]
  exact ofBool_append_low7 _

/-- The closed form of `DECODE` undoes `ENC` (R133). -/
theorem refDecode_payload :
    refDecode a.payload.length (a.payload.getD · 0#8) a.framing = .ok { id := a.id, ext := a.ext, data := a.data } := by
  obtain ⟨htl, hidl, hdn⟩ := a.framing_fields h
  have hroom : ¬ a.payload.length < a.idl + 1 := by
    rw [a.payload_length h]
    omega
  have hext : (a.payload.getD 0 0#8).getLsbD 6 = a.ext := by
    rw [a.payload_getD_zero, BitVec.getLsbD_append, BitVec.getLsbD_append]
    simp
  have hdata : (List.range a.data.length).map (refDataByte (a.payload.getD · 0#8) a.framing) = a.data := by
    refine List.ext_getElem (by simp) fun j _ hj => ?_
    rw [List.getElem_map, List.getElem_range, refDataByte_payload h hj]
  rw [refDecode, htl, hidl, hdn, if_neg (not_not.mpr rfl), if_neg hroom, refIdent_payload h, hext, hdata]

end

end Sys2Proof.Machine
end

section
/-! Framer: payload bytes, `NOP`, the chain of `FRM`, and runs of bytes as the decoder sees them (R100 to R106). -/

namespace Sys2Proof.Machine

/-! ### Events -/

section
variable {s : State} (op : State → State)

/-- Halted, an event only ends the pulses (R182). -/
theorem State.event_of_halted (h : s.halt = true) : s.event op = s.clearPulses := if_pos h

theorem State.event_of_running (h : s.halt = false) : s.event op = op s.clearPulses := by
  rw [State.event, h]
  rfl

end

/-- `NOP` does the same halted and running (R102). -/
theorem State.event_id (s : State) : s.event id = s.clearPulses := ite_self _

/-- A close leaves a halted core as it is (R182). -/
theorem State.closeIf_of_halted {s : State} (c : Bool) (h : s.halt = true) : s.closeIf c = s := by
  cases c <;> simp [State.closeIf, State.closeTransport, h]

/-! ### One payload byte (R100) -/

/-- `CNT` after one more byte, in the words of R100. -/
theorem cntNext_eq (n : Fin 17) : cntNext n = Fin.ofNat 17 (if n.val < 16 then n.val + 1 else n.val) := by
  revert n
  decide

/-- After a payload byte a close is always one in mid-frame. -/
theorem cntNext_pos (n : Fin 17) : 0 < cntNext n := by
  revert n
  decide

/-- The close that follows a payload byte on a running core (R181, R183). -/
theorem State.closeIf_accumulate {s : State} (c : Bool) (b : Byte) (h : s.halt = false) :
    (s.accumulate b).closeIf c =
      { s.accumulate b with halt := c, hkind := if c then .decodeIncomplete else s.hkind } := by
  rw [State.closeIf_eq]
  simp [h, cntNext_pos]

/-- Settles O12: halted, the event is ignored; running, `ACC` stores and counts, and the close finds `CNT` above 0. -/
theorem payloadByteStoredAndCounted : Obligations.PayloadByteStoredAndCounted := by
  intro s c v
  simp only [exec, execAcc, execPayload]
  refine ⟨fun hhalt => ?_, fun hrun => ?_⟩
  · rw [State.event_of_halted _ hhalt, State.closeIf_of_halted c (s := s.clearPulses) hhalt]
    exact ⟨rfl, rfl⟩
  · rw [State.event_of_running _ hrun, State.closeIf_accumulate c _ (s := s.clearPulses) hrun, ← cntNext_eq]
    exact ⟨rfl, rfl⟩

/-! ### `NOP` and idle pins -/

/-- Settles O13: the event of a `NOP` only ends the pulses. -/
theorem nopChangesNothing : Obligations.NopChangesNothing := fun s =>
  congrArg Host.Outcome.next s.event_id

/-- Idle pins select `NOP` (R60, log entry 3). -/
theorem State.presented_of_no_pins {s : State} (h : s.pins = []) : s.presented = .nop := by
  rw [State.presented, State.nextSample, h]
  rfl

/-- Idle pins present no query and keep `now` (log entry 3). -/
theorem State.ready_of_no_pins {s : State} (h : s.pins = []) (hnow : s.now < 2 ^ s.cfg.tw) :
    s.ready = { s with query := none } := by
  have hidle : s.nextSample = s.idleSample := by rw [State.nextSample, h, List.headD_nil]
  have hquery : s.nextSample.queryWord.getLsbD 34 = false := by
    rw [hidle, State.idleSample]
    exact BitVec.getLsbD_zero
  rw [State.ready_of_no_query hquery, State.sampled, hidle, h, State.idleSample,
    Nat.mod_eq_of_lt hnow, List.tail_nil, ← h]

/-- Settles O40: the step is a `NOP` on the state with the query port cleared. -/
theorem silentTransportIsAWait : Obligations.SilentTransportIsAWait := by
  intro s hpins hnow
  rw [step_eq, State.presented_of_no_pins hpins, State.ready_of_no_pins hpins hnow]
  exact nopChangesNothing _

/-! ### The chain of `FRM` (R101) -/

/-- A decoded frame is not dropped. -/
theorem State.dropIfMalformed_of_ok {s : State} {f : DecodedFrame} (h : s.decoded = some (.ok f)) :
    s.dropIfMalformed = s := by
  rw [State.dropIfMalformed, h]

/-- On a decoded frame `FRM` is `DECODE`, `CNT <- 0`, `OBSERVE` and `EMIT` (R101). -/
theorem State.closeFrame_chain {s : State} {fb : FramingByte} {f : DecodedFrame}
    (h : decodeFrame s.buf s.cnt fb = .ok f) :
    s.closeFrame fb = ({ s.runDecode fb with cnt := 0 } : State).runObserve.runEmit.endFrame :=
  congrArg (fun u => u.runObserve.runEmit.endFrame) (State.dropIfMalformed_of_ok (congrArg some h))

/-- Settles O16: the chain of `FRM`, whose parts are the meanings of the three operations. -/
theorem frmRunsTheInternalOperations : Obligations.FrmRunsTheInternalOperations := by
  intro s fb f hrun hf
  have hok : decodeFrame s.clearPulses.buf s.clearPulses.cnt fb = .ok f := (decodeFrame_eq_refDecode ..).trans hf
  refine ⟨s.clearPulses.runDecode fb, _, _, rfl, congrArg some hok, rfl, rfl, ?_⟩
  rw [exec, execFraming, State.event_of_running _ hrun, State.closeFrame_chain hok]
  rfl

/-! ### Streams of bytes (R104, R106) -/

/-- Whatever `CNT` shows as 16 is longer than every length a framing byte can declare (R22, R104). -/
theorem min_cntMax_eq_tl_iff (n : Nat) (fb : FramingByte) : min n 16 = fb.tl ↔ n = fb.tl := by
  have := fb.tl_le
  omega

/-- Counting only up to 16 changes no result of the closed form (R104). -/
theorem refDecode_min_cntMax (n : Nat) (b : Nat → Byte) (fb : FramingByte) :
    refDecode (min n 16) b fb = refDecode n b fb := by
  simp only [refDecode, ne_eq, min_cntMax_eq_tl_iff]

/-- `DECODE` of a buffer that holds the first 15 bytes of a stream, with their number counted up to 16, is the closed form of
the whole stream (R104). -/
theorem decodeFrame_of_stream {buf : Vector Byte 15} {n : Fin 17} {bs : List Byte} (fb : FramingByte)
    (hn : n.val = min bs.length 16) (hbuf : ∀ i, i < bs.length → i < 15 → bufRead buf i = bs.getD i 0#8) :
    decodeFrame buf n fb = refDecode bs.length (bs.getD · 0#8) fb := by
  rw [decodeFrame_eq_refDecode, hn, refDecode_min_cntMax]
  exact refDecode_congr fb fun hlen i hi => hbuf i (by omega) (Nat.lt_of_lt_of_le hi fb.tl_le)

/-- Settles O23: the run leaves the stream's first 15 bytes in `BUF` and its length up to 16 in `CNT`. -/
theorem boundedBufferLosesNothing : Obligations.BoundedBufferLosesNothing := by
  intro s bs now rest fb hrun hcnt hpayload hpins
  have hzero : s.cnt.val = 0 := congrArg Fin.val hcnt
  obtain ⟨u, hu, hupins, -, huhalt, -, huovf, hucache, hucnt, -, hubuf⟩ := run_payload bs s now rest hrun hpayload hpins
  simp only [hzero, Nat.zero_add] at hucnt hubuf
  exact ⟨u, hu, hupins, hucache, huovf, huhalt, hucnt, decodeFrame_of_stream fb hucnt hubuf⟩

section
variable (s : State) (fb : FramingByte)

/-- Dropped or accepted, a frame ends with `CNT` = 0 (R101, R209). -/
@[simp] theorem State.closeFrame_cnt : (s.closeFrame fb).cnt = 0 := by
  rcases s.closeFrame_cases fb with ⟨k, -, h⟩ | ⟨f, -, ⟨h, -⟩ | ⟨h, -⟩ | ⟨m, h, -⟩⟩ <;> rw [h]

@[simp] theorem State.closeFrame_halt : (s.closeFrame fb).halt = s.halt := by
  rcases s.closeFrame_cases fb with ⟨k, -, h⟩ | ⟨f, -, ⟨h, -⟩ | ⟨h, -⟩ | ⟨m, h, -⟩⟩ <;> rw [h]

@[simp] theorem State.closeFrame_pins : (s.closeFrame fb).pins = s.pins := by
  rcases s.closeFrame_cases fb with ⟨k, -, h⟩ | ⟨f, -, ⟨h, -⟩ | ⟨h, -⟩ | ⟨m, h, -⟩⟩ <;> rw [h]

end

/-- After any framing byte a running core stands at the start of a frame, whatever it had collected (R106, R211). -/
theorem step_framing_starts_frame {s : State} {now : Nat} {fb : FramingByte} {rest : List PinSample}
    (hrun : s.halt = false) (hpins : s.pins = byteSample now fb.toByte :: rest) :
    ∃ t, step s = .next t ∧ t.halt = false ∧ t.cnt = 0 ∧ t.pins = rest :=
  ⟨_, step_framing hrun hpins, (State.closeFrame_halt _ fb).trans hrun, State.closeFrame_cnt _ fb,
    State.closeFrame_pins _ fb⟩

/-- The bytes of an encoded frame, fed to a running core with `CNT` = 0, wait for their framing byte to be decoded to what was
encoded (R133). -/
theorem run_encoded_payload {s : State} {a : EncArgs} {now : Nat} {rest : List PinSample} (hrun : s.halt = false)
    (hcnt : s.cnt = 0) (ha : a.wf = true) (hpins : s.pins = (encFrame a).map (byteSample now) ++ rest) :
    ∃ u, run a.payload.length s = .next u ∧ u.pins = byteSample now a.framing.toByte :: rest ∧ u.cache = s.cache ∧
      u.ovf = s.ovf ∧ u.halt = false ∧
      decodeFrame u.buf u.cnt a.framing = .ok { id := a.id, ext := a.ext, data := a.data } := by
  rw [encFrame, List.map_append, List.append_assoc] at hpins
  obtain ⟨u, hu, hupins, hucache, huovf, huhalt, -, hdec⟩ :=
    boundedBufferLosesNothing s a.payload now _ a.framing hrun hcnt a.payload_marker hpins
  exact ⟨u, hu, hupins, hucache, huovf, huhalt, hdec.trans (refDecode_payload ha)⟩

/-- Settles O26: any framing byte leaves a running core with `CNT` = 0, and from there the encoded frame is recovered. -/
theorem resynchronisesAtTheNextMarker : Obligations.ResynchronisesAtTheNextMarker := by
  intro s fb a now rest hrun ha hpins
  obtain ⟨t, hstep, hthalt, htcnt, htpins⟩ := step_framing_starts_frame hrun hpins
  obtain ⟨u, hu, hupins, -, -, -, hdec⟩ := run_encoded_payload hthalt htcnt ha htpins
  exact ⟨u, (run_succ hstep).trans hu, State.nextSample_of_pins hupins, hdec⟩

end Sys2Proof.Machine
end

section
/-! Decoder: the checks and the closed forms as `DECODE` answers them, its working values role by role, over-long frames, and
the recovery of an encoded frame (R120 to R133). -/

namespace Sys2Proof

/-! ### A payload byte in its role (R64 to R67) -/

section
variable (v : BitVec 7)

theorem decodeRole_id0 :
    decodeRole .id0 (payloadByte v) = .ok (.id0 (v.getLsbD 6) (v.extractLsb' 0 6)) := by
  revert v
  decide

theorem decodeRole_idk {k : Nat} (h : 1 ≤ k ∧ k ≤ 4) : decodeRole (.idk k) (payloadByte v) = .ok (.idk k v) := by
  rw [decodeRole, payloadByte_getLsbD_seven]
  simp [payloadByte_low, h]

theorem decodeRole_datj {j : Nat} (h : j < Config.maxData) :
    decodeRole (.datj j) (payloadByte v) = .ok (.datj j v) := by
  rw [decodeRole, payloadByte_getLsbD_seven]
  simp [payloadByte_low, h]

theorem decodeRole_cry : decodeRole .cry (payloadByte v) = .ok (.cry v) := by
  rw [decodeRole, payloadByte_getLsbD_seven]
  simp [payloadByte_low]

end

end Sys2Proof

namespace Sys2Proof.Machine

/-! ### What `DECODE` answers (R122, R123) -/

section
variable {buf : Vector Byte 15} {n : Fin 17} {fb : FramingByte}

theorem decodeFrame_eq_malformed_iff {kind : DropKind} :
    decodeFrame buf n fb = .malformed kind ↔ frameCheck n fb = some kind := by
  rw [decodeFrame]
  cases frameCheck n fb <;> simp

theorem decodeWork_of_accepted (h : frameCheck n fb = none) : decodeWork buf n fb = assemble buf fb := by
  rw [decodeWork, h]

/-- The frame that the closed forms R70 and R71 give. -/
def refFrame (b : Nat → Byte) (fb : FramingByte) : DecodedFrame :=
  { id := refIdent b fb.idl, ext := (b 0).getLsbD 6, data := (List.range fb.dn).map (refDataByte b fb) }

@[simp] theorem refFrame_data_length (b : Nat → Byte) (fb : FramingByte) : (refFrame b fb).data.length = fb.dn := by
  simp [refFrame]

theorem refFrame_data_getD (b : Nat → Byte) {j : Nat} (hj : j < fb.dn) :
    (refFrame b fb).data.getD j 0#8 = refDataByte b fb j := by
  simp [refFrame, hj]

/-- A frame that passes both checks is decoded to the closed forms. -/
theorem decodeFrame_of_accepted (hn : n.val = fb.tl) (hroom : fb.idl + 1 ≤ fb.tl) :
    decodeFrame buf n fb = .ok (refFrame (bufRead buf) fb) := by
  rw [decodeFrame_eq_refDecode, refDecode, if_neg (not_not.mpr hn), if_neg (Nat.not_lt.mpr hroom), refFrame]

theorem decodeFrame_ok_iff : (∃ f, decodeFrame buf n fb = .ok f) ↔ n.val = fb.tl ∧ fb.idl + 1 ≤ fb.tl := by
  rw [← frameCheck_eq_none, decodeFrame]
  cases frameCheck n fb <;> simp

end

/-- Settles O18: the loops of `DECODE` have the closed forms of R70 and R71. -/
theorem decodeGivesTheClosedForm : Obligations.DecodeGivesTheClosedForm := by
  intro s fb
  rw [← decodeFrame_eq_refDecode]
  exact ⟨decodeWork s.buf s.cnt fb, rfl⟩

/-- Settles O20: the decoder answers as its two checks do, and accepts what passes both. -/
theorem rejectedExactlyWhen : Obligations.RejectedExactlyWhen := by
  intro buf n fb
  refine ⟨decodeFrame_eq_malformed_iff.trans frameCheck_eq_lengthMismatch,
    decodeFrame_eq_malformed_iff.trans frameCheck_eq_shortFrame, ?_, ?_⟩
  · rintro ⟨f, hf, -⟩
    exact decodeFrame_ok_iff.mp ⟨f, hf⟩
  · rintro ⟨hn, hroom⟩
    exact ⟨_, decodeFrame_of_accepted hn hroom, refFrame_data_length _ _⟩

/-! ### Over-long frames (R129) -/

/-- Bit 7 of data byte `j` is carry bit `8 - dn + j`, or 0 when that is negative (R71). -/
theorem refDataByte_getLsbD_seven (b : Nat → Byte) (fb : FramingByte) (j : Nat) :
    (refDataByte b fb j).getLsbD 7 = (decide (fb.dn ≤ 8 + j) && (refCarry b fb).getLsbD (8 + j - fb.dn)) := by
  rw [refDataByte, BitVec.getLsbD_append]
  simp

/-- Settles O22: in the closed form, data byte `j` has a carry bit exactly from `dn - 8` on. -/
theorem overlongFrameDecoded : Obligations.OverlongFrameDecoded := by
  intro buf n fb hn hroom hlong
  have hlen := refFrame_data_length (bufRead buf) fb
  refine ⟨_, decodeFrame_of_accepted hn hroom, hlen, hlen ▸ fb.dn_le, fun j hj => ?_, fun i hi => ?_,
    fun m now => ⟨?_, ?_⟩⟩
  · have huncarried : ¬ fb.dn ≤ 8 + j := by omega
    rw [refFrame_data_getD _ (by omega), refDataByte_getLsbD_seven, decide_eq_false huncarried, Bool.false_and]
  · have hcarried : fb.dn ≤ 8 + (fb.dn - 8 + i) := by omega
    have hbit : 8 + (fb.dn - 8 + i) - fb.dn = i := by omega
    rw [refFrame_data_getD _ (by omega), refDataByte_getLsbD_seven, decide_eq_true hcarried, Bool.true_and, hbit]
  · simpa [outRecord, Config.conformingData] using hlong
  · rw [outRecord, portLen, hlen]

/-! ### `DECODE` as the byte roles in order (R124, R125, R127) -/

/-- After what was done before, the byte at position `p` of the frame in `buf` performed in its role. -/
def performAt (buf : Vector Byte 15) (fb : FramingByte) (r : Host.Outcome State Fault Refusal) (p : Nat) :
    Host.Outcome State Fault Refusal :=
  andThen r fun t => match decodeRole (roleAt fb p) (payloadByte (low7 (bufRead buf p))) with
    | .ok i => exec i t
    | .error _ => .next t

section
variable {buf : Vector Byte 15} {fb : FramingByte} (s : State) (w : Work)

/-- Where the byte's role is an operation, that operation is performed. -/
theorem performAt_of_decodeRole {i : Instr} {p : Nat}
    (h : decodeRole (roleAt fb p) (payloadByte (low7 (bufRead buf p))) = .ok i) :
    performAt buf fb (.next s) p = exec i s := by
  rw [performAt, h]
  rfl

theorem performAt_first :
    performAt buf fb (.next { s with work := w }) 0 =
      .next { s with work := w.takeId0 ((bufRead buf 0).getLsbD 6) ((bufRead buf 0).extractLsb' 0 6) } := by
  have hext : (low7 (bufRead buf 0)).getLsbD 6 = (bufRead buf 0).getLsbD 6 := by simp [low7]
  have hlow : (low7 (bufRead buf 0)).extractLsb' 0 6 = (bufRead buf 0).extractLsb' 0 6 :=
    extractLsb'_of_low _ (by omega)
  rw [performAt_of_decodeRole _ (roleAt_first fb ▸ decodeRole_id0 _), hext, hlow]
  rfl

theorem performAt_identifier {k : Nat} (h1 : 1 ≤ k) (hk : k < fb.idl) :
    performAt buf fb (.next { s with work := w }) k =
      .next { s with work := w.takeIdk k (low7 (bufRead buf k)) } := by
  have hpos : k ≤ 4 := by
    have := fb.idl_bounds
    omega
  exact performAt_of_decodeRole _ (roleAt_identifier h1 hk ▸ decodeRole_idk _ ⟨h1, hpos⟩)

theorem performAt_last (hroom : fb.idl + 1 ≤ fb.tl) :
    performAt buf fb (.next { s with work := w }) (fb.tl - 1) =
      .next { s with work := w.takeCry (low7 (bufRead buf (fb.tl - 1))) } :=
  performAt_of_decodeRole _ (roleAt_last hroom ▸ decodeRole_cry _)

theorem performAt_data {j : Nat} (hj : j < fb.dn) :
    performAt buf fb (.next { s with work := w }) (fb.idl + j) =
      .next { s with work := w.takeDatj j (low7 (bufRead buf (fb.idl + j))) } :=
  performAt_of_decodeRole _ (roleAt_data hj ▸ decodeRole_datj _ (Nat.lt_of_lt_of_le hj fb.dn_le))

/-- Positions of `IDk` bytes, performed in any order. -/
theorem foldl_performAt_idk (ks : List Nat) (h : ∀ k ∈ ks, 1 ≤ k ∧ k < fb.idl) :
    ks.foldl (performAt buf fb) (.next { s with work := w }) =
      .next { s with work := ks.foldl (fun w k => w.takeIdk k (low7 (bufRead buf k))) w } := by
  induction ks generalizing w with
  | nil => rfl
  | cons k ks ih =>
    obtain ⟨⟨h1, hk⟩, hks⟩ := List.forall_mem_cons.mp h
    rw [List.foldl_cons, performAt_identifier s w h1 hk, ih _ hks, List.foldl_cons]

/-- Step 4 (R125) is `ID0` and then the `IDk` in rising order. -/
theorem foldl_performAt_identifier :
    (List.range fb.idl).foldl (performAt buf fb) (.next { s with work := w }) =
      .next { s with work := takeIdentifier buf fb.idl w } := by
  obtain ⟨hidl, -⟩ := fb.idl_bounds
  have hrange : List.range fb.idl = 0 :: List.range' 1 (fb.idl - 1) := by
    rw [List.range_eq_range', ← Nat.sub_add_cancel (Nat.one_le_of_lt hidl), List.range'_succ, Nat.add_sub_cancel]
  have hidk : ∀ k ∈ List.range' 1 (fb.idl - 1), 1 ≤ k ∧ k < fb.idl := fun k hk => by
    rw [List.mem_range'_1] at hk
    omega
  rw [hrange, List.foldl_cons, performAt_first, foldl_performAt_idk s _ _ hidk, takeIdentifier]

/-- Step 5's loop (R127) is the `DATj` from the last to the first. -/
theorem foldl_performAt_data (n : Nat) (hn : n ≤ fb.dn) :
    (List.range' fb.idl n).reverse.foldl (performAt buf fb) (.next { s with work := w }) =
      .next { s with work := takeData buf fb.idl n w } := by
  induction n generalizing w with
  | zero => rfl
  | succ n ih =>
    rw [List.range'_1_concat, List.reverse_concat, List.foldl_cons, performAt_data s w hn, ih _ (Nat.le_of_succ_le hn),
      takeData]

/-- Steps 4 and 5 of `DECODE` on a frame that passed its checks are the roles of its bytes in the source's order (R124). -/
theorem foldl_performAt_frame (hroom : fb.idl + 1 ≤ fb.tl) :
    (List.range fb.idl ++ [fb.tl - 1] ++ (List.range' fb.idl fb.dn).reverse).foldl (performAt buf fb)
      (.next { s with work := Work.start fb }) = .next { s with work := assemble buf fb } := by
  rw [List.foldl_append, List.foldl_append, foldl_performAt_identifier, List.foldl_cons, List.foldl_nil,
    performAt_last s _ hroom, foldl_performAt_data s _ _ (le_refl _), assemble]

end

/-- Settles O19: each part of `DECODE` is the roles of the bytes it reads, in its order. -/
theorem decodeIsTheRolesInOrder : Obligations.DecodeIsTheRolesInOrder := by
  intro s fb hn hroom
  exact ⟨s.runDecode fb, { s with work := assemble s.buf fb }, rfl, foldl_performAt_frame s hroom,
    (decodeWork_of_accepted (frameCheck_eq_none.mpr ⟨hn, hroom⟩)).symm⟩

/-! ### An encoded frame is recovered (R133) -/

/-- The parameters are the same after any number of steps (R24). -/
theorem run_cfg {k : Nat} {s t : State} (h : run k s = .next t) : t.cfg = s.cfg := by
  induction k generalizing s with
  | zero =>
    cases h
    rfl
  | succ k ih =>
    obtain ⟨u, hu⟩ := step_next s
    rw [run_succ hu] at h
    rw [ih h, parametersNeverChange s u hu]

/-- With a free entry, the observed data is what the cache then holds: stored, or there already (R150). -/
theorem refObserve_read_of_hasRoom {p : Config.Params} {c : Cache} (id : Ident) (fields : List Byte) (now : Nat)
    (h : hasRoom p c = true) :
    ∃ e, (refObserve p c id fields now).2.1.read id = some e ∧ e.lastData = fields := by
  rw [refObserve]
  cases hread : c.read id with
  | none => simp [h]
  | some e =>
    by_cases hsame : e.lastData = fields
    · exact ⟨e, by simpa [hsame] using hread, hsame⟩
    · simp [hsame]

/-- After `FRM` on an accepted frame the cache holds its data, unless it was full (R150, R156). -/
theorem State.closeFrame_read_of_hasRoom {s : State} {fb : FramingByte} {f : DecodedFrame}
    (hf : decodeFrame s.buf s.cnt fb = .ok f) (h : hasRoom s.cfg s.cache = true) :
    ∃ e, (s.closeFrame fb).cache.read f.id = some e ∧ e.lastData = f.data := by
  rw [State.closeFrame_ok hf]
  exact refObserve_read_of_hasRoom _ _ _ h

/-- An accepted frame raises no error (R101). -/
theorem State.closeFrame_err_of_ok {s : State} {fb : FramingByte} {f : DecodedFrame}
    (hf : decodeFrame s.buf s.cnt fb = .ok f) : (s.closeFrame fb).err = s.err := by
  rw [State.closeFrame_ok hf]

/-- The step of a framing byte that closes an accepted frame: no error, and the data is in the cache unless it was full. -/
theorem step_framing_of_ok {s : State} {now : Nat} {fb : FramingByte} {f : DecodedFrame} {rest : List PinSample}
    (hrun : s.halt = false) (hpins : s.pins = byteSample now fb.toByte :: rest) (hf : decodeFrame s.buf s.cnt fb = .ok f) :
    ∃ t, step s = .next t ∧ t.pins = rest ∧ t.cnt = 0 ∧ t.err = none ∧ t.halt = false ∧
      (hasRoom s.cfg s.cache = true → ∃ e, t.cache.read f.id = some e ∧ e.lastData = f.data) :=
  ⟨_, step_framing hrun hpins, State.closeFrame_pins _ fb, State.closeFrame_cnt _ fb, State.closeFrame_err_of_ok hf,
    (State.closeFrame_halt _ fb).trans hrun, fun hfree => State.closeFrame_read_of_hasRoom hf hfree⟩

/-- Settles O24: the payload bytes leave a frame that decodes to what was encoded, and the framing byte's step accepts it. -/
theorem encodedFrameIsRecovered : Obligations.EncodedFrameIsRecovered := by
  intro s a now rest hrun hcnt ha hpins
  obtain ⟨u, hu, hupins, hucache, -, huhalt, hdec⟩ := run_encoded_payload hrun hcnt ha hpins
  obtain ⟨t, hstep, htpins, htcnt, hterr, hthalt, htcache⟩ := step_framing_of_ok huhalt hupins hdec
  rw [run_cfg hu, hucache] at htcache
  exact ⟨u, t, hu, State.nextSample_of_pins hupins, hdec, hstep, htpins, htcnt, hterr, hthalt, htcache⟩

end Sys2Proof.Machine
end

section
/-! Cache: a run that does not overflow is the run of the core with the unbounded cache (D10, R156). -/

namespace Sys2Proof.Machine

/-! ### One step with and without a bound -/

/-- An observation that does not overflow does not depend on `CACHE_ENTRIES`: with the bound it found room or an entry, and
without it there is room too. -/
theorem refObserve_unbounded {p : Config.Params} {c : Cache} {id : Ident} {fields : List Byte} {now : Nat}
    (h : (refObserve p c id fields now).2.2 = false) :
    refObserve { p with cacheEntries := none } c id fields now = refObserve p c id fields now := by
  cases hread : c.read id with
  | some e => simp only [refObserve, hread]
  | none =>
    cases hroom : hasRoom p c with
    | true => simp [refObserve, hread, hroom]
    | false => simp [refObserve, hread, hroom] at h

section
variable {s : State}

theorem State.closeIf_unbounded (c : Bool) : s.unbounded.closeIf c = (s.closeIf c).unbounded := by
  rw [State.closeIf_eq, State.closeIf_eq]
  rfl

/-- The bound is read by `OBSERVE` alone, and there only an overflow shows it. -/
theorem State.closeFrame_unbounded {fb : FramingByte} (ho : (s.closeFrame fb).ovf = false) :
    s.unbounded.closeFrame fb = (s.closeFrame fb).unbounded := by
  cases hd : decodeFrame s.buf s.cnt fb with
  | malformed kind =>
    rw [State.closeFrame_malformed hd]
    exact State.closeFrame_malformed hd
  | ok f =>
    rw [State.closeFrame_ok hd] at ho
    have hobs := refObserve_unbounded (Bool.or_eq_false_iff.mp ho).2
    rw [State.closeFrame_ok hd, State.closeFrame_ok (s := s.unbounded) hd, ← hobs]
    rfl

/-- An event does the same without the bound when its effect on a running core does; a halted core ignores it. -/
theorem State.event_unbounded {op : State → State} (ho : (s.event op).ovf = false)
    (hop : ∀ {u : State}, (op u).ovf = false → op u.unbounded = (op u).unbounded) :
    s.unbounded.event op = (s.event op).unbounded := by
  cases hh : s.halt with
  | true =>
    rw [State.event_of_halted _ hh]
    exact State.event_of_halted op hh
  | false =>
    rw [State.event_of_running _ hh] at ho ⊢
    exact (State.event_of_running (s := s.unbounded) op hh).trans (hop ho)

/-- A step that ends with `OVF` = 0 is the same step of the core with the unbounded cache. -/
theorem step_unbounded {t : State} (h : step s = .next t) (ho : t.ovf = false) :
    step s.unbounded = .next t.unbounded := by
  have hready : step s.unbounded = exec s.presented s.ready.unbounded := step_eq s.unbounded
  rw [hready]
  rw [step_eq] at h
  rcases s.presented_cases with hp | hp | hp | ⟨c, v, hp⟩ | ⟨c, fb, hp⟩ | ⟨v, hp⟩ | ⟨fb, hp⟩ <;> rw [hp] at h ⊢ <;>
    cases h
  · rfl
  · exact congrArg _ (State.event_unbounded ho fun _ => rfl)
  · exact congrArg _ (State.event_unbounded ho fun _ => State.closeIf_unbounded true)
  · rw [State.closeIf_ovf] at ho
    rw [exec, execAcc, State.event_unbounded ho fun _ => rfl, State.closeIf_unbounded]
  · rw [State.closeIf_ovf] at ho
    rw [exec, execFrm, State.event_unbounded ho State.closeFrame_unbounded, State.closeIf_unbounded]
  · exact congrArg _ (State.event_unbounded ho fun _ => rfl)
  · exact congrArg _ (State.event_unbounded ho State.closeFrame_unbounded)

/-! ### Runs without `RESET` -/

/-- A step uses up one sample (R29). -/
theorem step_pins {t : State} (h : step s = .next t) : t.pins = s.pins.tail := by
  rcases step_cases h with ⟨-, rfl⟩ | ⟨-, -, rfl⟩ | ⟨-, c, ⟨-, -, rfl⟩ | ⟨-, -, rfl⟩ | ⟨v, -, rfl⟩ | ⟨fb, -, rfl⟩⟩ <;>
    simp [State.closeTransport_eq, State.closeIf_eq]

/-- No waiting sample selects `RESET`. -/
def State.NoReset (s : State) : Prop := ∀ p ∈ s.pins, decodeIngest p.ingest ≠ .reset

/-- The next step is no `RESET` then: with no sample waiting it is a `NOP`. -/
theorem State.NoReset.presented (hs : s.NoReset) : s.presented ≠ .reset := by
  cases hpins : s.pins with
  | nil => simp [State.presented_of_no_pins hpins]
  | cons p rest =>
    rw [State.presented_of_pins hpins]
    exact hs p (by simp [hpins])

theorem State.NoReset.step {t : State} (hs : s.NoReset) (h : step s = .next t) : t.NoReset := fun p hp =>
  hs p (List.mem_of_mem_tail (step_pins h ▸ hp))

end

/-- `OVF`, once set, is set at the end of every run without `RESET` (R23). -/
theorem run_ovf_of_ovf {k : Nat} {s t : State} (hs : s.NoReset) (h : run k s = .next t) (ho : s.ovf = true) :
    t.ovf = true := by
  induction k generalizing s with
  | zero =>
    cases h
    exact ho
  | succ k ih =>
    obtain ⟨u, hu⟩ := step_next s
    rw [run_succ hu] at h
    exact ih (hs.step hu) h ((flagsAreSticky s u hu hs.presented).2 ho)

/-- By induction on the number of steps: `OVF` = 0 at the end means `OVF` = 0 after each step, and such a step is the unbounded
core's. -/
theorem run_unbounded {k : Nat} {s t : State} (hs : s.NoReset) (h : run k s = .next t) (ho : t.ovf = false) :
    run k s.unbounded = .next t.unbounded := by
  induction k generalizing s with
  | zero =>
    cases h
    rfl
  | succ k ih =>
    obtain ⟨u, hu⟩ := step_next s
    rw [run_succ hu] at h
    have huovf : u.ovf = false := Bool.eq_false_iff.mpr fun hset => by
      simp [run_ovf_of_ovf (hs.step hu) h hset] at ho
    rw [run_succ (step_unbounded hu huovf)]
    exact ih (hs.step hu) h

/-- Settles O55: step by step, the two cores stay alike but for the bound. -/
theorem noOverflowMeansUnboundedRun : Obligations.NoOverflowMeansUnboundedRun := fun _ _ _ => run_unbounded

end Sys2Proof.Machine
end

section
/-! Cache: the four cases of `OBSERVE`, and `EMIT` (R150 to R158). -/

namespace Sys2Proof.Machine

/-! ### R150 case by case -/

section
variable {p : Config.Params} {c : Cache} {id : Ident} (fields : List Byte) (now : Nat)

theorem refObserve_unseen (hread : c.read id = none) (hroom : hasRoom p c = true) :
    refObserve p c id fields now = (some (allTrue fields.length),
      c.write id { lastData := fields, diffMask := allTrue fields.length, lastSeen := now }, false) := by
  simp [refObserve, hread, hroom]

theorem refObserve_full (hread : c.read id = none) (hroom : hasRoom p c = false) :
    refObserve p c id fields now = (some (allTrue fields.length), c, true) := by
  simp [refObserve, hread, hroom]

variable {fields} {e : Entry} (hread : c.read id = some e)
include hread

theorem refObserve_identical (hsame : e.lastData = fields) : refObserve p c id fields now = (none, c, false) := by
  simp [refObserve, hread, hsame]

theorem refObserve_sameLength (hdiff : e.lastData ≠ fields) (hlen : e.lastData.length = fields.length) :
    refObserve p c id fields now = (some (refMask e.lastData fields),
      c.write id { lastData := fields, diffMask := refMask e.lastData fields, lastSeen := now }, false) := by
  simp [refObserve, hread, hdiff, hlen]

theorem refObserve_otherLength (hlen : e.lastData.length ≠ fields.length) :
    refObserve p c id fields now = (some (allTrue fields.length),
      c.write id { lastData := fields, diffMask := allTrue fields.length, lastSeen := now }, false) := by
  have hdiff : e.lastData ≠ fields := fun h => hlen (congrArg _ h)
  simp [refObserve, hread, hdiff, hlen]

end

/-- After an observation the cache holds the observed data, if the identifier was there or fitted. -/
theorem refObserve_read_of_fits {p : Config.Params} {c : Cache} {id : Ident} (fields : List Byte) (now : Nat)
    (hfit : hasRoom p c = true ∨ c.read id ≠ none) :
    ∃ e, (refObserve p c id fields now).2.1.read id = some e ∧ e.lastData = fields := by
  rcases hfit with hroom | hseen
  · exact refObserve_read_of_hasRoom id fields now hroom
  · obtain ⟨e, hread⟩ := Option.ne_none_iff_exists'.mp hseen
    by_cases hsame : e.lastData = fields
    · exact ⟨e, by rw [refObserve_identical now hread hsame]; exact hread, hsame⟩
    · by_cases hlen : e.lastData.length = fields.length
      · exact ⟨_, by rw [refObserve_sameLength now hread hsame hlen]; exact Cache.read_write_same .., rfl⟩
      · exact ⟨_, by rw [refObserve_otherLength now hread hlen]; exact Cache.read_write_same .., rfl⟩

/-! ### The element-wise mask (R153, R164) -/

section
variable {stored fields : List Byte}

@[simp] theorem refMask_length : (refMask stored fields).length = fields.length := by simp [refMask]

theorem refMask_getD (hlen : stored.length = fields.length) {j : Nat} (hj : j < fields.length) :
    (refMask stored fields).getD j false = decide (fields.getD j 0#8 ≠ stored.getD j 0#8) := by
  have hs : j < stored.length := hlen ▸ hj
  simp [refMask, hj, hs]

/-- Lists of one length that differ do so in some element. -/
theorem true_mem_refMask (hlen : stored.length = fields.length) (hdiff : stored ≠ fields) :
    true ∈ refMask stored fields := by
  obtain ⟨j, hj⟩ : ∃ j, fields[j]? ≠ stored[j]? := by
    by_contra hall
    push Not at hall
    exact hdiff (List.ext_getElem? hall).symm
  have hin : j < fields.length := by
    by_contra hout
    have hend := Nat.not_lt.mp hout
    exact hj ((List.getElem?_eq_none hend).trans (List.getElem?_eq_none (hlen ▸ hend)).symm)
  simp only [refMask, List.mem_map, List.mem_range, decide_eq_true_eq]
  exact ⟨j, hin, hj⟩

end

/-! ### `OBSERVE` and `EMIT` on a decoded frame -/

section
variable {s : State} {f : DecodedFrame}

theorem State.runObserve_of_ok (hf : s.decoded = some (.ok f)) : s.runObserve = s.observeFields f.id f.data := by
  rw [State.runObserve, hf]

/-- `OBSERVE` does what R150 answers for the decoded frame. -/
theorem exec_observe_of_refObserve {m : Option Mask} {c : Cache} {o : Bool} (hf : s.decoded = some (.ok f))
    (h : refObserve s.cfg s.cache f.id f.data s.now = (m, c, o)) :
    exec .observe s = .next { s with cache := c, ovf := s.ovf || o, mask := m } := by
  rw [exec, execObserve, State.runObserve_of_ok hf, State.observeFields_eq, h]

theorem exec_observe_full (hf : s.decoded = some (.ok f)) (hread : s.cache.read f.id = none)
    (hroom : hasRoom s.cfg s.cache = false) :
    exec .observe s = .next { s with ovf := true, mask := some (allTrue f.data.length) } := by
  rw [exec_observe_of_refObserve hf (refObserve_full _ _ hread hroom), Bool.or_true]

theorem State.runEmit_of_ok {m : Mask} (hf : s.decoded = some (.ok f)) (hm : s.mask = some m) :
    s.runEmit = { s with out := some (outRecord f m s.now) } := by
  simp only [State.runEmit, hf, hm]

theorem State.runObserve_of_not_ok (hf : ∀ f, s.decoded ≠ some (.ok f)) : s.runObserve = s := by
  rw [State.runObserve]
  split
  · exact absurd ‹_› (hf _)
  · rfl
  · rfl

theorem State.runEmit_of_not_ok (hf : ∀ f, s.decoded ≠ some (.ok f)) : s.runEmit = s := by
  rw [State.runEmit]
  split
  · exact absurd ‹_› (hf _)
  · rfl
  · rfl
  · rfl

/-- Without a mask there is nothing to emit (R158). -/
theorem State.runEmit_of_no_mask (hm : s.mask = none) : s.runEmit = s := by
  rw [State.runEmit, hm]
  rcases s.decoded with - | f | kind <;> rfl

end

/-! ### The obligations about one observation -/

/-- Settles O27: a free entry takes the data. -/
theorem observeUnseen : Obligations.ObserveUnseen := by
  intro s f hf hread hroom
  rw [exec_observe_of_refObserve hf (refObserve_unseen _ _ hread hroom), Bool.or_false]
  rfl

/-- Settles O28: `CACHE_ENTRIES` entries or more leave no room. -/
theorem observeUnseenWhenFull : Obligations.ObserveUnseenWhenFull := by
  intro s f n hf hread hbound hfull
  exact exec_observe_full hf hread (by simpa [hasRoom, hbound] using hfull)

/-- Settles O29: R150 answers nothing and writes nothing. -/
theorem observeIdentical : Obligations.ObserveIdentical := by
  intro s f e hf hread hsame
  rw [exec_observe_of_refObserve hf (refObserve_identical _ hread hsame), Bool.or_false]

/-- Settles O30: the mask is R153's. -/
theorem observeSameLengthDiffers : Obligations.ObserveSameLengthDiffers := by
  intro s f e hf hread hlen hdiff
  refine ⟨refMask e.lastData f.data, ?_, refMask_length, true_mem_refMask hlen hdiff, fun j => refMask_getD hlen⟩
  rw [exec_observe_of_refObserve hf (refObserve_sameLength _ hread hdiff hlen), Bool.or_false]

/-- Settles O31: data of another length differs, and every element of it counts as changed. -/
theorem observeLengthDiffers : Obligations.ObserveLengthDiffers := by
  intro s f e hf hread hlen
  rw [exec_observe_of_refObserve hf (refObserve_otherLength _ hread hlen), Bool.or_false]
  rfl

/-- Settles O32: both run only on a decoded frame, and `EMIT` only with a mask. -/
theorem nothingToObserveOrEmit : Obligations.NothingToObserveOrEmit := fun _ =>
  ⟨fun hf => ⟨congrArg _ (State.runObserve_of_not_ok hf), congrArg _ (State.runEmit_of_not_ok hf)⟩,
    fun hm => congrArg _ (State.runEmit_of_no_mask hm)⟩

/-- Settles O34: R150 is asked with the identifier and the data of the frame alone. -/
theorem extendedIsNotInTheKey : Obligations.ExtendedIsNotInTheKey := by
  intro s f ext hf
  exact ⟨_, exec_observe_of_refObserve hf rfl,
    exec_observe_of_refObserve (s := { s with decoded := some (.ok { f with ext := ext }) }) rfl rfl⟩

/-- Settles O35: the record is `outRecord`'s. -/
theorem emitDrivesTheRecord : Obligations.EmitDrivesTheRecord := by
  intro s f m hf hm hlen
  refine ⟨outRecord f m s.now, congrArg _ (State.runEmit_of_ok hf hm), rfl, rfl, rfl, rfl, ?_, fun i _ => ?_,
    fun i hi => ?_⟩
  · exact decide_eq_true_iff
  · simp [outRecord, portData, portMask]
  · simp [outRecord, portData, portMask, hi, hlen]

/-! ### Two observations of the same frame (R162) -/

section
variable {s t : State} {f : DecodedFrame} (later : Nat)

/-- What was there or fitted is found again, identical. -/
theorem exec_observe_again_of_fits (hf : s.decoded = some (.ok f)) (ht : exec .observe s = .next t)
    (hfit : hasRoom s.cfg s.cache = true ∨ s.cache.read f.id ≠ none) :
    exec .observe { t with now := later } = .next { t with now := later, mask := none } := by
  rw [exec_observe_of_refObserve hf rfl] at ht
  cases ht
  obtain ⟨e, hread, hsame⟩ := refObserve_read_of_fits f.data s.now hfit
  exact observeIdentical _ f e hf hread hsame

/-- What did not fit is unseen again, and the cache is as full as before. -/
theorem exec_observe_again_of_full (hf : s.decoded = some (.ok f)) (ht : exec .observe s = .next t)
    (hroom : hasRoom s.cfg s.cache = false) (hread : s.cache.read f.id = none) :
    exec .observe { t with now := later } = .next { t with now := later } ∧ t.mask = some (allTrue f.data.length) := by
  rw [exec_observe_full hf hread hroom] at ht
  cases ht
  exact ⟨exec_observe_full (s := { s with ovf := true, mask := some (allTrue f.data.length), now := later }) hf hread hroom,
    rfl⟩

end

/-- Settles O33: the two cases of the identifier that fits and the one that does not. -/
theorem observeTwice : Obligations.ObserveTwice := fun _ _ _ later hf ht =>
  ⟨exec_observe_again_of_fits later hf ht, exec_observe_again_of_full later hf ht⟩

end Sys2Proof.Machine
end

section
/-! Cache: the query port and freshness (R159 to R161). -/

namespace Sys2Proof.Machine

section
variable (tw now : Nat) (e : Entry) (i : Fin 12)

/-- A port element of the stored mask, 0 beyond its length (R30). -/
theorem portMask_getElem (m : Mask) : (portMask m)[i] = m.getD i.val false := by simp [portMask]

/-- The effective mask is the stored one gated with freshness, element by element (R160). -/
theorem portMask_effMask_getElem :
    (portMask (effMask tw now e))[i] = (e.diffMask.getD i.val false && fresh tw now e) := by
  rw [portMask_getElem, effMask]
  exact List.getD_map e.diffMask false (· && fresh tw now e)

variable {tw now e}

theorem effMask_of_fresh (h : fresh tw now e = true) : effMask tw now e = e.diffMask := by simp [effMask, h]

theorem portMask_effMask_of_stale (h : fresh tw now e = false) :
    portMask (effMask tw now e) = Vector.replicate 12 false := by
  ext j hj
  simpa [h] using portMask_effMask_getElem tw now e ⟨j, hj⟩

end

/-- The test of R159 on the integers: the age is a remainder, so it is not negative. -/
theorem fresh_eq (tw now : Nat) (e : Entry) :
    fresh tw now e = decide (((now : Int) - (e.lastSeen : Int)) % ((2 ^ tw : Nat) : Int) ≤ 2) := by
  have hpos : ((2 ^ tw : Nat) : Int) ≠ 0 := Int.natCast_ne_zero.mpr (Nat.two_pow_pos tw).ne'
  have hage := Int.emod_nonneg ((now : Int) - (e.lastSeen : Int)) hpos
  rw [fresh, age, Config.staleWindow]
  congr 1
  rw [eq_iff_iff]
  omega

/-- `d` ticks after it was written an entry has age `d`, whether or not `now` has wrapped (R159). -/
theorem age_of_ticks {tw d : Nat} (lastSeen : Nat) (hd : d < 2 ^ tw) : age tw ((lastSeen + d) % 2 ^ tw) lastSeen = d := by
  rw [age, Int.natCast_mod, Int.emod_sub_emod, Int.natCast_add, add_sub_cancel_left, ← Int.natCast_mod,
    Int.toNat_natCast, Nat.mod_eq_of_lt hd]

section
variable {s : State} {q : Ident}

theorem State.answer_miss (h : s.cache.read q = none) : s.answer q = .miss := by rw [State.answer, h]

theorem State.answer_hit {e : Entry} (h : s.cache.read q = some e) : s.answer q = .hit (queryHit s.cfg.tw s.now e) := by
  rw [State.answer, h]

/-- A hit shows an entry of the cache. -/
theorem State.exists_of_answer_hit {h : QueryHit} (ha : s.answer q = .hit h) : ∃ e, h = queryHit s.cfg.tw s.now e := by
  cases hread : s.cache.read q with
  | none => simp [State.answer_miss hread] at ha
  | some e =>
    rw [State.answer_hit hread] at ha
    cases ha
    exact ⟨e, rfl⟩

end

/-! ### The obligations -/

/-- Settles O36: `QUERY` drives the answer, which is a miss or shows the entry read. -/
theorem queryAnswersFromTheCache : Obligations.QueryAnswersFromTheCache := by
  intro s q
  refine ⟨fun hread => ?_, fun e hread => ⟨queryHit s.cfg.tw s.now e, ?_, rfl, rfl, fresh_eq .., fun i => ⟨?_, ?_, ?_⟩⟩⟩
  · rw [exec, execQuery, State.answer_miss hread]
  · rw [exec, execQuery, State.answer_hit hread]
  · simp [queryHit, portData]
  · exact portMask_getElem i e.diffMask
  · exact portMask_effMask_getElem _ _ e i

/-- Settles O37: the age counts the ticks, and the window is two of them. -/
theorem freshForTwoTicks : Obligations.FreshForTwoTicks := by
  intro p e d _ _ hd
  rw [fresh, age_of_ticks e.lastSeen hd]
  exact decide_eq_true_iff

/-- Settles O38: the mask shown is the stored one gated with freshness, and `QUERY` writes nothing but its port. -/
theorem staleEntryShowsNoChange : Obligations.StaleEntryShowsNoChange := by
  rintro s t q h ht hq
  cases ht
  obtain ⟨e, rfl⟩ := State.exists_of_answer_hit (Option.some.inj hq)
  exact ⟨rfl, fun hfresh => congrArg portMask (effMask_of_fresh hfresh), portMask_effMask_of_stale⟩

end Sys2Proof.Machine
end

section
/-! Cache: what a step does to the cache, to `OVF` and to the record port (R150 to R158, R163). -/

namespace Sys2Proof.Machine

/-! ### An accepted frame (R101, R150) -/

section
variable {s : State} {fb : FramingByte}

@[simp] theorem State.closeFrame_hkind : (s.closeFrame fb).hkind = s.hkind := by
  rcases s.closeFrame_cases fb with ⟨k, -, h⟩ | ⟨f, -, ⟨h, -⟩ | ⟨h, -⟩ | ⟨m, h, -⟩⟩ <;> rw [h]

@[simp] theorem State.closeFrame_now : (s.closeFrame fb).now = s.now := by
  rcases s.closeFrame_cases fb with ⟨k, -, h⟩ | ⟨f, -, ⟨h, -⟩ | ⟨h, -⟩ | ⟨m, h, -⟩⟩ <;> rw [h]

@[simp] theorem State.closeIf_now (c : Bool) : (s.closeIf c).now = s.now := by simp [State.closeIf_eq]

/-- The close that follows a framing byte on a running core is one between frames (R181, R183). -/
theorem State.closeIf_closeFrame (c : Bool) (h : s.halt = false) :
    (s.closeFrame fb).closeIf c =
      { s.closeFrame fb with halt := c, hkind := if c then .transportClosed else s.hkind } := by
  rw [State.closeIf_eq]
  simp [h]

end

/-- Settles O15: `FRM` on an accepted frame is R150 and the record of the mask it returns. -/
theorem goodFrameIsObservedAndEmitted : Obligations.GoodFrameIsObservedAndEmitted := by
  intro s c fb f hrun hf
  have hok : decodeFrame s.clearPulses.buf s.clearPulses.cnt fb = .ok f := (decodeFrame_eq_refDecode ..).trans hf
  rw [exec, exec, execFrm, execFraming, State.event_of_running _ hrun, State.closeIf_closeFrame c (s := s.clearPulses) hrun,
    State.closeFrame_ok hok, State.clearPulses_out, Option.or_none]
  exact ⟨rfl, rfl⟩

/-! ### The two ends of a frame: with a record or without -/

section
variable {s : State} {fb : FramingByte}

/-- `FRM` that drives no record has dropped the frame or found its data in the cache (R152, R158, R209). -/
theorem State.closeFrame_of_no_record (ho : (s.closeFrame fb).out = none) :
    (s.closeFrame fb).cache = s.cache ∧ (s.closeFrame fb).ovf = s.ovf := by
  rcases s.closeFrame_cases fb with ⟨k, -, h⟩ | ⟨f, -, ⟨h, -⟩ | ⟨h, -⟩ | ⟨m, h, -⟩⟩ <;> rw [h] at ho ⊢
  case inr.inr.inl => simp at ho
  case inr.inr.inr => simp at ho
  all_goals exact ⟨rfl, rfl⟩

/-- The record `FRM` drives is that of the entry it wrote, or of a frame that did not fit (R157, R163). -/
theorem State.closeFrame_record {r : OutRecord} (hs : s.out = none) (ho : (s.closeFrame fb).out = some r) :
    r.outTime = s.now ∧
      ((∃ e, (s.closeFrame fb).cache.read r.outId = some e ∧ e.lastSeen = r.outTime ∧ portLen e.lastData = r.outLen ∧
          portData e.lastData = r.outData ∧ portMask e.diffMask = r.outMask) ∨
        ((s.closeFrame fb).cache.read r.outId = none ∧ (s.closeFrame fb).ovf = true)) := by
  rcases s.closeFrame_cases fb with ⟨k, -, h⟩ | ⟨f, -, ⟨h, -⟩ | ⟨h, hread, -⟩ | ⟨m, h, -⟩⟩ <;> rw [h] at ho ⊢
  · cases ho
  · simp [hs] at ho
  · cases ho
    exact ⟨rfl, .inr ⟨hread, rfl⟩⟩
  · cases ho
    exact ⟨rfl, .inl ⟨_, Cache.read_write_same .., rfl, rfl, rfl, rfl⟩⟩

/-- With no limit there is no overflow (R156). -/
theorem State.closeFrame_ovf_of_unbounded (hc : s.cfg.cacheEntries = none) : (s.closeFrame fb).ovf = s.ovf := by
  rcases s.closeFrame_cases fb with ⟨k, -, h⟩ | ⟨f, -, ⟨h, -⟩ | ⟨-, -, hfull⟩ | ⟨m, h, -⟩⟩
  case inr.inr.inl => simp [hc] at hfull
  all_goals rw [h]

end

/-- What a step can be for the cache: `RESET`; or one that leaves the cache, `OVF` and the record port alone; or `FRM`, with a
close after it or not. -/
theorem step_cache_cases {s t : State} (h : step s = .next t) :
    (s.presented = .reset ∧ t = s.ready.resetCore) ∨ (t.cache = s.cache ∧ t.ovf = s.ovf ∧ t.out = none) ∨
      ∃ fb c, t = (s.ready.clearPulses.closeFrame fb).closeIf c := by
  rcases step_cases h with hreset | ⟨-, -, rfl⟩ | ⟨-, c, ⟨-, -, rfl⟩ | ⟨-, -, rfl⟩ | ⟨v, -, rfl⟩ | ⟨fb, -, rfl⟩⟩
  · exact .inl hreset
  · exact .inr (.inl ⟨rfl, rfl, rfl⟩)
  · exact .inr (.inl ⟨rfl, rfl, rfl⟩)
  · exact .inr (.inl (by simp [State.closeTransport_eq]))
  · exact .inr (.inl (by simp))
  · exact .inr (.inr ⟨fb, c, rfl⟩)

/-! ### The obligations about steps -/

/-- Settles O49: only `FRM` writes the cache or `OVF`, and then it drives a record. -/
theorem noRecordNoCacheChange : Obligations.NoRecordNoCacheChange := by
  intro s t h hr ho
  rcases step_cache_cases h with ⟨hp, -⟩ | ⟨hcache, hovf, -⟩ | ⟨fb, c, rfl⟩
  · exact absurd hp hr
  · exact ⟨hcache, hovf⟩
  · rw [State.closeIf_out] at ho
    simpa using State.closeFrame_of_no_record ho

/-- Settles O50: a record after a step is `FRM`'s. -/
theorem recordShowsTheStoredEntry : Obligations.RecordShowsTheStoredEntry := by
  intro s t r h ho
  rcases step_cache_cases h with ⟨-, rfl⟩ | ⟨-, -, hout⟩ | ⟨fb, c, rfl⟩
  · cases ho
  · simp [hout] at ho
  · rw [State.closeIf_out] at ho
    simpa using State.closeFrame_record rfl ho

/-- Settles O51: `RESET` clears `OVF`, and `FRM` cannot set it without a limit. -/
theorem unboundedCacheNeverOverflows : Obligations.UnboundedCacheNeverOverflows := by
  intro s t hc h ho
  rcases step_cache_cases h with ⟨-, rfl⟩ | ⟨-, hovf, -⟩ | ⟨fb, c, rfl⟩
  · cases ho
  · exact hovf ▸ ho
  · rw [State.closeIf_ovf, State.closeFrame_ovf_of_unbounded (s := s.ready.clearPulses) hc] at ho
    exact ho

end Sys2Proof.Machine
end

section
/-! System: `RESET`, `CLOSE`, a byte with a close, and the halted state as a stop for good (R180 to R183, R212). -/

namespace Sys2Proof.Machine

/-! ### The halted state over steps and runs (R182) -/

section
variable {s t : State} (hhalt : s.halt = true)
include hhalt

/-- Halted, a step that is no `RESET` samples the pins, serves the query and ends the pulses. -/
theorem step_of_halted (hr : s.presented ≠ .reset) (h : step s = .next t) : t = s.ready.clearPulses := by
  rcases step_cases h with ⟨hreset, -⟩ | ⟨-, -, ht⟩ | ⟨hrun, -⟩
  · exact absurd hreset hr
  · exact ht
  · simp [hhalt] at hrun

/-- By induction on the number of steps: with the pulses over, a halted core changes in nothing but what the environment presents
to it and the answers it gives to queries. -/
theorem run_of_halted {k : Nat} (hout : s.out = none) (herr : s.err = none) (hs : s.NoReset) (h : run k s = .next t) :
    t = { s with now := t.now, pins := t.pins, query := t.query } := by
  induction k generalizing s with
  | zero =>
    cases h
    rfl
  | succ k ih =>
    obtain ⟨u, hu⟩ := step_next s
    rw [run_succ hu] at h
    have hnext := hs.step hu
    obtain ⟨now, pins, query, rfl⟩ : ∃ now pins query, u = { s with now := now, pins := pins, query := query } := by
      rw [step_of_halted hhalt hs.presented hu, State.clearPulses, ← hout, ← herr]
      exact ⟨_, _, _, rfl⟩
    exact ih (s := { s with now := now, pins := pins, query := query }) hhalt hout herr hnext h

end

/-- Settles O46: the state after the run is the state before it but for the step's inputs and the query port. -/
theorem haltedUntilReset : Obligations.HaltedUntilReset := by
  intro k s t hhalt hout herr hs h
  rw [run_of_halted hhalt hout herr hs h]
  exact ⟨hhalt, rfl, rfl, rfl, rfl, rfl, hout, herr⟩

/-! ### `RESET` (R180) -/

/-- Settles O8: what `resetCore` assigns, and `rst` read first. -/
theorem resetOperation : Obligations.ResetOperation :=
  ⟨fun _ => rfl, fun _ => decodeStep_reset⟩

/-! ### `CLOSE` (R181) -/

/-- `CLOSE` by itself is the close that follows a byte, without a byte (R181, R183). -/
theorem exec_close (s : State) : exec .close s = .next (s.clearPulses.closeIf true) := by
  rw [exec, execClose]
  cases hhalt : s.halt with
  | false => rw [State.event_of_running _ hhalt, State.closeTransport_eq]
  | true => rw [State.event_of_halted _ hhalt, State.closeIf_of_halted true (s := s.clearPulses) hhalt]

/-- Settles O9: the kind is chosen by `CNT` exactly when the core was running. -/
theorem closeHaltsWithKind : Obligations.CloseHaltsWithKind := by
  intro s
  rw [exec_close, State.closeIf_eq]
  cases hhalt : s.halt <;> simp [hhalt, State.clearPulses]

/-! ### Events while halted (R182) -/

/-- Settles O10: a halted core answers every event, a close after it or not, by ending the pulses. -/
theorem haltedCoreIgnoresEvents : Obligations.HaltedCoreIgnoresEvents := by
  intro s c v fb q hhalt
  have hevent (op : State → State) : s.event op = s.clearPulses := State.event_of_halted op hhalt
  have hclose (c : Bool) : s.clearPulses.closeIf c = s.clearPulses := State.closeIf_of_halted c hhalt
  refine ⟨nopChangesNothing s, ?acc, ?frm, ?close, ?payload, ?framing, rfl, _, rfl, rfl⟩
  case acc =>
    rw [exec, execAcc, hevent, hclose]
    rfl
  case frm =>
    rw [exec, execFrm, hevent, hclose]
    rfl
  case close =>
    rw [exec_close, hclose]
    rfl
  case payload => exact congrArg _ (hevent _)
  case framing => exact congrArg _ (hevent _)

/-! ### A byte and a close in one step (R183) -/

/-- A close in the byte's own step leaves what a close in the next step leaves, but for the byte's outputs. -/
theorem State.closeIf_eq_closeIf_clearPulses (c : Bool) (s : State) :
    s.closeIf c = { s.clearPulses.closeIf c with out := s.out, err := s.err } := by
  rw [State.closeIf_eq, State.closeIf_eq]
  rfl

/-- Settles O11: `CNT` is above 0 after a payload byte and 0 after a framing byte, which gives the kind. -/
theorem byteThenCloseInOneStep : Obligations.ByteThenCloseInOneStep := by
  intro s v fb
  refine ⟨⟨_, _, rfl, exec_close _, congrArg _ (State.closeIf_eq_closeIf_clearPulses true _), fun hrun => ?acc⟩,
    ⟨_, _, rfl, exec_close _, congrArg _ (State.closeIf_eq_closeIf_clearPulses true _), fun hrun => ?frm⟩⟩
  case acc =>
    rw [State.event_of_running _ hrun]
    simp [State.closeIf_eq, hrun, cntNext_pos]
  case frm =>
    rw [State.event_of_running _ hrun]
    simp [State.closeIf_eq, hrun]

end Sys2Proof.Machine
end

section
/-! Exceptions: a frame that is dropped (R200, R201, R209). -/

namespace Sys2Proof.Machine

/-! ### One dropped frame -/

/-- With no record on the port, a `NOP` ends the error pulse and changes nothing else (R102, R209). -/
theorem exec_nop_of_no_record {s : State} (hout : s.out = none) : exec .nop s = .next { s with err := none } := by
  rw [nopChangesNothing s, ← hout]

/-- Settles O14: `FRM` on a rejected frame is the drop of R209, the close after it is one between frames, and no record is left
for the next `NOP` to clear. -/
theorem malformedFrameIsDropped : Obligations.MalformedFrameIsDropped := by
  intro s c fb kind hrun hkind
  have hbad : decodeFrame s.clearPulses.buf s.clearPulses.cnt fb = .malformed kind :=
    (decodeFrame_eq_refDecode ..).trans hkind
  rw [exec, exec, execFrm, execFraming, State.event_of_running _ hrun, State.closeIf_closeFrame c (s := s.clearPulses) hrun,
    State.closeFrame_malformed hbad]
  refine ⟨rfl, rfl, ?pulse⟩
  case pulse =>
    rintro t (ht | ht) <;> cases ht <;> exact exec_nop_of_no_record rfl

/-! ### A wrong count at the end of a run of bytes -/

/-- The length check comes first: a wrong count is rejected whatever the bytes are (R122, R201). -/
theorem refDecode_of_wrong_count {n : Nat} {fb : FramingByte} (b : Nat → Byte) (hn : n ≠ fb.tl) :
    refDecode n b fb = .malformed .lengthMismatch := if_pos hn

/-- The step of a framing byte that closes a rejected frame: one pulse with the kind, no record, `CNT` = 0, and the cache, `OVF`
and `HALT` as before (R209). -/
theorem step_framing_of_malformed {s : State} {now : Nat} {fb : FramingByte} {kind : DropKind} {rest : List PinSample}
    (hrun : s.halt = false) (hpins : s.pins = byteSample now fb.toByte :: rest)
    (hbad : decodeFrame s.buf s.cnt fb = .malformed kind) :
    ∃ t, step s = .next t ∧ t.err = some kind ∧ t.out = none ∧ t.cnt = 0 ∧ t.cache = s.cache ∧ t.ovf = s.ovf ∧
      t.halt = false ∧ t.pins = rest :=
  ⟨_, (step_framing hrun hpins).trans (congrArg _ (State.closeFrame_malformed hbad)), rfl, rfl, rfl, rfl, rfl, hrun, rfl⟩

/-- Settles O25: the payload bytes leave a frame that decodes as the whole stream does, so its length is rejected, and the
framing byte's step drops it. -/
theorem wrongCountIsDropped : Obligations.WrongCountIsDropped := by
  intro s bs fb now rest hrun hcnt hpayload hlen hpins
  rw [List.map_append, List.append_assoc] at hpins
  obtain ⟨u, hu, hupins, hucache, huovf, huhalt, -, hdec⟩ :=
    boundedBufferLosesNothing s bs now _ fb hrun hcnt hpayload hpins
  obtain ⟨t, hstep, hterr, htout, htcnt, htcache, htovf, hthalt, htpins⟩ :=
    step_framing_of_malformed huhalt hupins (hdec.trans (refDecode_of_wrong_count _ hlen))
  have hend : run (bs.length + 1) s = .next t := (run_add hu).trans (run_succ hstep)
  exact ⟨t, hend, hterr, htout, htcnt, htcache.trans hucache, htovf.trans huovf, hthalt, htpins⟩

end Sys2Proof.Machine
end

section
/-! The encoder against the decoder: every word the encoder writes reads back as the operation it was written for (R60 to R67). -/

namespace Sys2Proof

/-! ### The step word that presents a byte (R60) -/

section
variable (c : Bool) (b : Byte)

/-- The step word with `in_valid` = 1: no reset, `in_close` as given, and the byte. -/
def stepWordOfByte : StepWord := 0#1 ++ BitVec.ofBool c ++ 1#1 ++ b

theorem encode_acc (v : BitVec 7) : encode (.acc c v) = some (.step (stepWordOfByte c (payloadByte v))) := rfl

theorem encode_frm (fb : FramingByte) : encode (.frm c fb) = some (.step (stepWordOfByte c fb.toByte)) := rfl

/-- Above the byte stand `in_valid`, `in_close` and `rst`, in this order. -/
theorem stepWordOfByte_aboveByte (i : Nat) :
    (stepWordOfByte c b).getLsbD (8 + i) = (0#1 ++ BitVec.ofBool c ++ 1#1).getLsbD i := by
  rw [stepWordOfByte, BitVec.getLsbD_append, if_neg (by omega), Nat.add_sub_cancel_left]

theorem stepWordOfByte_inValid : (stepWordOfByte c b).getLsbD 8 = true :=
  (stepWordOfByte_aboveByte c b 0).trans (by cases c <;> rfl)

theorem stepWordOfByte_inClose : (stepWordOfByte c b).getLsbD 9 = c :=
  (stepWordOfByte_aboveByte c b 1).trans (by cases c <;> rfl)

theorem stepWordOfByte_rst : (stepWordOfByte c b).getLsbD 10 = false :=
  (stepWordOfByte_aboveByte c b 2).trans (by cases c <;> rfl)

theorem stepWordOfByte_inByte : (stepWordOfByte c b).extractLsb' 0 8 = b := extractLsb'_append_low _ _

theorem stepWordOfByte_class : (stepWordOfByte c b).getLsbD 7 = b.getLsbD 7 := by
  rw [stepWordOfByte, BitVec.getLsbD_append]
  rfl

theorem decodeStep_stepWordOfByte_payload (v : BitVec 7) : decodeStep (stepWordOfByte c (payloadByte v)) = .acc c v := by
  have hclass := (stepWordOfByte_class c (payloadByte v)).trans (payloadByte_getLsbD_seven v)
  have hv : (stepWordOfByte c (payloadByte v)).extractLsb' 0 7 = v := by
    rw [← extractLsb'_of_low _ (show 0 + 7 ≤ 8 by omega), stepWordOfByte_inByte, payloadByte_low]
  rw [decodeStep_acc (stepWordOfByte_rst ..) (stepWordOfByte_inValid ..) hclass, stepWordOfByte_inClose, hv]

theorem decodeStep_stepWordOfByte_framing (fb : FramingByte) : decodeStep (stepWordOfByte c fb.toByte) = .frm c fb := by
  have hclass := (stepWordOfByte_class c fb.toByte).trans (Machine.toByte_marker fb)
  rw [decodeStep_frm (stepWordOfByte_rst ..) (stepWordOfByte_inValid ..) hclass, stepWordOfByte_inClose,
    stepWordOfByte_inByte, Machine.framingFields_toByte]

end

/-! ### The query word (R60) -/

theorem decodeQuery_valid (q : Ident) : decodeQuery (1#1 ++ q) = .ok (.query q) := by
  have hvalid : (1#1 ++ q).getLsbD 34 = true := by
    rw [BitVec.getLsbD_append]
    rfl
  rw [decodeQuery, if_pos hvalid, extractLsb'_append_low]

theorem decodeQuery_of_not_valid {w : QueryWord} (hvalid : w.getLsbD 34 = false) : decodeQuery w = .error .noQuery := by
  rw [decodeQuery, hvalid]
  rfl

/-! ### A single byte (R61, R64) -/

theorem decodeWire_payloadByte (v : BitVec 7) : decodeWire (payloadByte v) = .payload v := by
  rw [decodeWire_payload (payloadByte_getLsbD_seven v), payloadByte_low]

theorem decodeWire_toByte (fb : FramingByte) : decodeWire fb.toByte = .framing fb := by
  rw [decodeWire_framing (Machine.toByte_marker fb), Machine.framingFields_toByte]

/-- The first identifier byte is the payload byte of the `extended` flag and six identifier bits (R64). -/
theorem id0Byte_eq_payloadByte (e : Bool) (v : BitVec 6) :
    (0#1 ++ BitVec.ofBool e ++ v : Byte) = payloadByte (BitVec.ofBool e ++ v) :=
  BitVec.append_assoc ..

theorem decodeRole_id0Byte (e : Bool) (v : BitVec 6) : decodeRole .id0 (0#1 ++ BitVec.ofBool e ++ v) = .ok (.id0 e v) := by
  have hext : (BitVec.ofBool e ++ v).getLsbD 6 = e := by
    rw [BitVec.getLsbD_append]
    simp
  rw [id0Byte_eq_payloadByte, decodeRole_id0, hext, extractLsb'_append_low]

/-- A byte with bit 7 set has no payload role, whatever the role (R61, R62). -/
theorem decodeRole_of_marker (r : Role) {b : Byte} (hmarker : b.getLsbD 7 = true) :
    decodeRole r b = .error .boundaryMarkerInFrame := if_pos hmarker

/-! ### Which positions are well formed (R65, R66) -/

theorem wf_idk_iff {k : Nat} {v : BitVec 7} : (Instr.idk k v).wf = true ↔ 1 ≤ k ∧ k ≤ 4 := by
  simp [Instr.wf]

theorem wf_datj_iff {j : Nat} {d : BitVec 7} : (Instr.datj j d).wf = true ↔ j < Config.maxData := decide_eq_true_iff

/-! ### The obligations -/

/-- Settles O3, operation by operation: the bits each class of words is read by are those the encoder put there. -/
theorem decodeOfEncode : Obligations.DecodeOfEncode := by
  intro i w hwf hw
  cases i with
  | reset => cases hw; exact congrArg _ (decodeStep_reset rfl)
  | nop => cases hw; exact congrArg _ (decodeStep_nop rfl rfl rfl)
  | acc c v => cases hw; exact congrArg _ (decodeStep_stepWordOfByte_payload c v)
  | frm c fb => cases hw; exact congrArg _ (decodeStep_stepWordOfByte_framing c fb)
  | close => cases hw; exact congrArg _ (decodeStep_close rfl rfl rfl)
  | query q => cases hw; exact decodeQuery_valid q
  | payload v => cases hw; exact congrArg _ (decodeWire_payloadByte v)
  | framing fb => cases hw; exact congrArg _ (decodeWire_toByte fb)
  | id0 e v => cases hw; exact decodeRole_id0Byte e v
  | idk k v => cases hw; exact decodeRole_idk v (wf_idk_iff.mp hwf)
  | datj j d => cases hw; exact decodeRole_datj d (wf_datj_iff.mp hwf)
  | cry c => cases hw; exact decodeRole_cry c
  | decode fb => cases hw
  | observe => cases hw
  | emit => cases hw

/-- Settles O2: eight of the words are the encoder's own, one query word has `q_valid` = 0, and one byte has bit 7 set. -/
theorem writtenWordsDecode : Obligations.WrittenWordsDecode := by
  have read {i : Instr} {w : RawWord} : i.wf = true → encode i = some w → decode w = .ok i := decodeOfEncode i w
  exact ⟨read rfl rfl, read rfl rfl, read rfl rfl, read rfl rfl, read rfl rfl, decodeQuery_of_not_valid rfl, read rfl rfl,
    read rfl rfl, read rfl rfl, decodeRole_of_marker .cry rfl⟩

end Sys2Proof
end
